-- ==== Sys2Proof/Word.lean ====
section
/-!
DEFINITION. The word types of the hardware: the 32-bit host register (00_scope.md R4, `REG_W`), the 16-bit
sample (30_encoding.md R65), the message byte (10_state.md R30) and the 64-bit hidden counter (`CNT_W`, R31).
-/

namespace Sys2Proof

/-- A host register, 32 bits (`REG_W`). -/
abbrev Word := BitVec 32

/-- A sample or an amplitude: 16 bits, two's complement (30_encoding.md R65, R69). -/
abbrev Sample := BitVec 16

/-- A message byte (10_state.md R30). -/
abbrev Byte := BitVec 8

/-- A hidden sample counter of `CNT_W` = 64 bits (10_state.md R31). -/
abbrev Count := BitVec 64

end Sys2Proof
end

