-- ==== Sys2Proof/Config.lean ====
section
/-!
DEFINITION. What one instance of the hardware fixes (00_scope.md R4), and the free values: opaque constants
that nothing can evaluate, one for each thing the spec leaves to the environment or leaves unstated.
-/

namespace Sys2Proof

/-- The parameter `SampleRound` (40_synthesizer.md R85): the default and the two alternatives named there. -/
inductive SampleRound where
  | nearestAway
  | towardZero
  | nearestEven
deriving DecidableEq, Repr

/-- The answer of the sink to one presented sample (20_memory.md R43). -/
inductive SinkAnswer where
  | accept
  | stall
  | fail
deriving DecidableEq, Repr, Inhabited

namespace Config

/-- The parameters of an instance that change behaviour (00_scope.md R4). Log 15. -/
structure Params where
  /-- `HAS_ABORT`: whether the ABORT command exists. -/
  hasAbort : Bool
  /-- `SampleRound`: the rounding of a sample to an integer. -/
  sampleRound : SampleRound
  /-- `SAMPLE_TOL`: the allowed deviation of a produced sample from the exact value. -/
  sampleTol : Nat
deriving DecidableEq, Repr

/-- The defaults of 00_scope.md R4. -/
def Params.default : Params := { hasAbort := true, sampleRound := .nearestAway, sampleTol := 0 }

/-- Free value: the sink's answer to the presentation numbered by the draw counter, when the input list gives
none (93_implementation_defined.md U11). Log 5. -/
opaque sinkAnswer : Nat → SinkAnswer

/-- Free value: whether a message read is answered at this boundary, when the input list does not say
(20_memory.md R51). Log 5. -/
opaque messageReady : Nat → Bool

/-- Free value: the byte answered for an index the host's message does not list (93_implementation_defined.md
U13). Log 22. -/
opaque messageByte : Nat → Byte

/-- Free value: whether DelayDone has come at this boundary, when the input list does not say
(93_implementation_defined.md U12). Log 5. -/
opaque delayDone : Nat → Bool

/-- Free value: the deviation of a produced sample when `SAMPLE_TOL` > 0 (40_synthesizer.md R88). Arguments:
the amplitude and the angle as a fraction of a turn. Log 14. -/
opaque sampleDeviation : Int → Nat → Nat → Int

/-- Free value: the sample formula at a sample rate that is not positive, where it has no value
(40_synthesizer.md R81). Log 16. -/
opaque rateless : Word → Sample → Count → Word → Sample

end Config

end Sys2Proof
end

