-- ==== Sys2Proof/Syntax.lean ====
section
/-!
DEFINITION. The operations of the hardware as one inductive, a constructor for each row of
spec/opcode_table.json, and the register names of 30_encoding.md R72.
-/

namespace Sys2Proof

/-- The registers a host can name (30_encoding.md R72); `reserved lo` is index 0xC + `lo`. -/
inductive Reg where
  | cmd
  | status
  | sampleRate
  | freqOn
  | freqOff
  | ampOn
  | ampOff
  | symDur
  | gap
  | msgLen
  | byteIdx
  | symIdx
  | reserved (lo : BitVec 2)
deriving DecidableEq, Repr

/-- One access of the host to a register: a read, or a write of a 32-bit value (43_host_commands.md R143,
R144). -/
inductive Access where
  | rd
  | wr (w : Word)
deriving DecidableEq, Repr

/-- The operations. The `reg…` rows of the table name a register index; as operations they are an access to
that register. A constructor without an operand takes everything from the state. -/
inductive Instr where
  /-- TRANSMIT, R140. -/
  | transmit
  /-- ABORT, R141. -/
  | abort
  /-- CMD_RESERVED, R70: a command code other than 0x01 and 0x02. -/
  | cmdReserved (code : BitVec 8)
  /-- WR, R143. -/
  | wr (r : Reg) (w : Word)
  /-- RD, R144. -/
  | rd (r : Reg)
  /-- REG_CMD, R25. -/
  | regCmd (a : Access)
  /-- REG_STATUS, R27. -/
  | regStatus (a : Access)
  /-- REG_SAMPLE_RATE, R11. -/
  | regSampleRate (a : Access)
  /-- REG_FREQ_ON, R12. -/
  | regFreqOn (a : Access)
  /-- REG_FREQ_OFF, R13. -/
  | regFreqOff (a : Access)
  /-- REG_AMP_ON, R14. -/
  | regAmpOn (a : Access)
  /-- REG_AMP_OFF, R15. -/
  | regAmpOff (a : Access)
  /-- REG_SYM_DUR, R16. -/
  | regSymDur (a : Access)
  /-- REG_GAP, R17. -/
  | regGap (a : Access)
  /-- REG_MSG_LEN, R18. -/
  | regMsgLen (a : Access)
  /-- REG_BYTE_IDX, R21. -/
  | regByteIdx (a : Access)
  /-- REG_SYM_IDX, R22. -/
  | regSymIdx (a : Access)
  /-- REG_RESERVED, R28: index 0xC + `lo`. -/
  | regReserved (lo : BitVec 2) (a : Access)
  /-- FRAME, R100. -/
  | frame (b : Byte)
  /-- START, R101. -/
  | start
  /-- BIT0 to BIT7, R102: `bitK` is emission index K and carries bit 7 - K of the byte. -/
  | bit0
  | bit1
  | bit2
  | bit3
  | bit4
  | bit5
  | bit6
  | bit7
  /-- STOP0 and STOP1, R103. -/
  | stop0
  | stop1
  /-- SLOT_UNUSED, R71: a symbol index 11 to 15. -/
  | slotUnused (v : BitVec 4)
  /-- MAP, R110: a level to its tone request. -/
  | map (level : Bool)
  /-- SYNTH, R80: frequency in millihertz, amplitude, duration in microseconds; the rate is `SAMPLE_RATE`. -/
  | synth (f : Word) (a : Sample) (d : Word)
  /-- EMIT, R118. -/
  | emit
  /-- FETCH, R116. -/
  | fetch
  /-- OPEN, R117, at the symbol index the state holds. -/
  | openSym
  /-- NEXTSYM, R119. -/
  | nextsym
  /-- ENDFRAME, R120. -/
  | endframe
  /-- GAPDONE, R121. -/
  | gapdone
  /-- FINISH, R122. -/
  | finish
deriving DecidableEq, Repr

end Sys2Proof
end

