-- ==== Sys2Proof/WellFormed.lean ====
section
/-!
DEFINITION. Which operations are well formed: the two checks the operand types do not already make.
-/

namespace Sys2Proof

/-- A reserved command code is neither 0x01 nor 0x02 (30_encoding.md R70); an unused slot is 11 to 15 (R62).
Every other operand is legal at every value of its type. -/
def Instr.wellFormed : Instr → Bool
  | .cmdReserved code => code != 0x01#8 && code != 0x02#8
  | .slotUnused v => decide (11 ≤ v.toNat)
  | .transmit | .abort | .wr _ _ | .rd _ => true
  | .regCmd _ | .regStatus _ | .regSampleRate _ | .regFreqOn _ | .regFreqOff _ | .regAmpOn _ | .regAmpOff _ => true
  | .regSymDur _ | .regGap _ | .regMsgLen _ | .regByteIdx _ | .regSymIdx _ | .regReserved _ _ => true
  | .frame _ | .start | .bit0 | .bit1 | .bit2 | .bit3 | .bit4 | .bit5 | .bit6 | .bit7 | .stop0 | .stop1 => true
  | .map _ | .synth _ _ _ | .emit | .fetch | .openSym | .nextsym | .endframe | .gapdone | .finish => true

/-- The well-formed operations. -/
abbrev Instr.WellFormed (i : Instr) : Prop := i.wellFormed = true

end Sys2Proof
end

