-- ==== Sys2Proof/Decode.lean ====
section
/-!
DEFINITION. The decoder, total on any word and rejecting by name, the encoder after it, and the reading of a
word of spec/opcode_table.json.

The hardware decodes no instruction stream (30_encoding.md): its six formats stand on different ports and the
same bits mean different things in each. A word is therefore its format and its bits (log 1), the bits
numbered as the table numbers them, an operand of a format standing in the whole bytes after it.
-/

namespace Sys2Proof

/-- The formats of 30_encoding.md R60 that can carry an operation. REGIDX words come in three shapes: a WR, an
RD and an access named by its register row. `noWord` is the table's format "none". -/
inductive Fmt where
  | cmd
  | write
  | read
  | regIdx
  | frame11
  | slot
  | toneReq
  | noWord
deriving DecidableEq, Repr

/-- One operation as it stands on its port: the longest format has 80 bits (R64). -/
structure OpWord where
  fmt : Fmt
  bits : BitVec 80
deriving DecidableEq, Repr

/-- Why a word is no operation. -/
inductive Reject where
  /-- A bit outside the format's fields is 1. -/
  | bitsOutsideFormat
  /-- Eleven levels not of the form `1dddddddd00` (30_encoding.md R71 (d)). -/
  | notAFrameWord
  /-- The operation has no encoding (42_transmitter.md R115 selects it by state). -/
  | noEncoding
deriving DecidableEq, Repr

/-- The register an index names (30_encoding.md R72). -/
def Reg.ofIndex (r : BitVec 4) : Reg :=
  match r.toNat with
  | 0 => .cmd
  | 1 => .status
  | 2 => .sampleRate
  | 3 => .freqOn
  | 4 => .freqOff
  | 5 => .ampOn
  | 6 => .ampOff
  | 7 => .symDur
  | 8 => .gap
  | 9 => .msgLen
  | 10 => .byteIdx
  | 11 => .symIdx
  | _ => .reserved (r.extractLsb' 0 2)

/-- The index of a register (30_encoding.md R72). -/
def Reg.index : Reg → BitVec 4
  | .cmd => 0x0#4
  | .status => 0x1#4
  | .sampleRate => 0x2#4
  | .freqOn => 0x3#4
  | .freqOff => 0x4#4
  | .ampOn => 0x5#4
  | .ampOff => 0x6#4
  | .symDur => 0x7#4
  | .gap => 0x8#4
  | .msgLen => 0x9#4
  | .byteIdx => 0xA#4
  | .symIdx => 0xB#4
  | .reserved lo => 0b11#2 ++ lo

/-- The row of a register's accesses in the table. -/
def Instr.ofRegAccess (r : Reg) (a : Access) : Instr :=
  match r with
  | .cmd => .regCmd a
  | .status => .regStatus a
  | .sampleRate => .regSampleRate a
  | .freqOn => .regFreqOn a
  | .freqOff => .regFreqOff a
  | .ampOn => .regAmpOn a
  | .ampOff => .regAmpOff a
  | .symDur => .regSymDur a
  | .gap => .regGap a
  | .msgLen => .regMsgLen a
  | .byteIdx => .regByteIdx a
  | .symIdx => .regSymIdx a
  | .reserved lo => .regReserved lo a

/-- The operation a command code stands for (30_encoding.md R70). -/
def decodeCommand (code : BitVec 8) : Instr :=
  if code = 0x01#8 then .transmit else if code = 0x02#8 then .abort else .cmdReserved code

/-- The symbol kind a 4-bit symbol index selects (30_encoding.md R62). -/
def decodeSlot (v : BitVec 4) : Instr :=
  match v.toNat with
  | 0 => .start
  | 1 => .bit0
  | 2 => .bit1
  | 3 => .bit2
  | 4 => .bit3
  | 5 => .bit4
  | 6 => .bit5
  | 7 => .bit6
  | 8 => .bit7
  | 9 => .stop0
  | 10 => .stop1
  | _ => .slotUnused v

/-- The access part of a REGIDX word: bit 32 is the direction (1 writes), bits 31:0 the value. A read carries
no value. -/
def decodeAccess (x : BitVec 33) : Option Access :=
  if x.getLsbD 32 then some (.wr (x.extractLsb' 0 32))
  else if x = 0#33 then some .rd else none

/-- The decoder. CMD: bits 7:0 the code, bits 31:8 ignored (R66). WR: bits 3:0 the index, bits 39:8 the value.
RD: bits 3:0 the index. REGIDX: as WR with the direction in bit 40. FRAME11: bit 10 is the first level, bits 9:2
the byte (R61). SLOT: bits 3:0. TONEREQ: `{F[31:0], A[15:0], D[31:0]}` (R64). -/
def decode (w : OpWord) : Except Reject Instr :=
  match w.fmt with
  | .cmd =>
    if w.bits.extractLsb' 32 48 = 0#48 then .ok (decodeCommand (w.bits.extractLsb' 0 8))
    else .error .bitsOutsideFormat
  | .write =>
    if w.bits.extractLsb' 4 4 = 0#4 ∧ w.bits.extractLsb' 40 40 = 0#40 then
      .ok (.wr (.ofIndex (w.bits.extractLsb' 0 4)) (w.bits.extractLsb' 8 32))
    else .error .bitsOutsideFormat
  | .read =>
    if w.bits.extractLsb' 4 76 = 0#76 then .ok (.rd (.ofIndex (w.bits.extractLsb' 0 4)))
    else .error .bitsOutsideFormat
  | .regIdx =>
    if w.bits.extractLsb' 4 4 = 0#4 ∧ w.bits.extractLsb' 41 39 = 0#39 then
      match decodeAccess (w.bits.extractLsb' 8 33) with
      | some a => .ok (.ofRegAccess (.ofIndex (w.bits.extractLsb' 0 4)) a)
      | none => .error .bitsOutsideFormat
    else .error .bitsOutsideFormat
  | .frame11 =>
    if w.bits.extractLsb' 11 69 = 0#69 then
      if w.bits.extractLsb' 10 1 = 1#1 ∧ w.bits.extractLsb' 0 2 = 0#2 then
        .ok (.frame (w.bits.extractLsb' 2 8))
      else .error .notAFrameWord
    else .error .bitsOutsideFormat
  | .slot =>
    if w.bits.extractLsb' 4 76 = 0#76 then .ok (decodeSlot (w.bits.extractLsb' 0 4))
    else .error .bitsOutsideFormat
  | .toneReq =>
    .ok (.synth (w.bits.extractLsb' 48 32) (w.bits.extractLsb' 32 16) (w.bits.extractLsb' 0 32))
  | .noWord => .error .noEncoding

/-! ## The encoder -/

/-- The access part of a REGIDX word. -/
def encodeAccess : Access → BitVec 33
  | .rd => 0#33
  | .wr w => 1#1 ++ w

/-- A CMD word (R66, R70): the code, the ignored bits 0. -/
def cmdWord (code : BitVec 8) : OpWord := { fmt := .cmd, bits := 0#72 ++ code }

/-- A REGIDX word of a register row (R72). -/
def regWord (r : Reg) (a : Access) : OpWord :=
  { fmt := .regIdx, bits := 0#39 ++ encodeAccess a ++ 0#4 ++ r.index }

/-- A WR word: the index and the value written (43_host_commands.md R143). -/
def writeWord (r : Reg) (w : Word) : OpWord := { fmt := .write, bits := 0#40 ++ w ++ 0#4 ++ r.index }

/-- An RD word: the index (43_host_commands.md R144). -/
def readWord (r : Reg) : OpWord := { fmt := .read, bits := 0#76 ++ r.index }

/-- A SLOT word (R62). -/
def slotWord (v : BitVec 4) : OpWord := { fmt := .slot, bits := 0#76 ++ v }

/-- The 11 levels of a byte's frame as a number, first symbol in bit 10: `{1, b[7:0], 0, 0}` (R61). -/
def frameWord (b : Byte) : BitVec 11 := 1#1 ++ b ++ 0#2

/-- A frame word in its format (R61). -/
def frame11Word (b : Byte) : OpWord := { fmt := .frame11, bits := 0#69 ++ frameWord b }

/-- The record `{F, A, D}` of a tone request (R64). -/
def toneRecord (f : Word) (a : Sample) (d : Word) : BitVec 80 := f ++ a ++ d

/-- A tone request in its format (R64). -/
def toneWord (f : Word) (a : Sample) (d : Word) : OpWord := { fmt := .toneReq, bits := toneRecord f a d }

/-- The word of an operation; none for the operations the table gives no word of their own: the steps selected
by state (R115), and MAP and EMIT, whose rows show the format of their result (R110, R118; log 2). -/
def encode : Instr → Option OpWord
  | .transmit => some (cmdWord 0x01#8)
  | .abort => some (cmdWord 0x02#8)
  | .cmdReserved code => some (cmdWord code)
  | .wr r w => some (writeWord r w)
  | .rd r => some (readWord r)
  | .regCmd a => some (regWord .cmd a)
  | .regStatus a => some (regWord .status a)
  | .regSampleRate a => some (regWord .sampleRate a)
  | .regFreqOn a => some (regWord .freqOn a)
  | .regFreqOff a => some (regWord .freqOff a)
  | .regAmpOn a => some (regWord .ampOn a)
  | .regAmpOff a => some (regWord .ampOff a)
  | .regSymDur a => some (regWord .symDur a)
  | .regGap a => some (regWord .gap a)
  | .regMsgLen a => some (regWord .msgLen a)
  | .regByteIdx a => some (regWord .byteIdx a)
  | .regSymIdx a => some (regWord .symIdx a)
  | .regReserved lo a => some (regWord (.reserved lo) a)
  | .frame b => some (frame11Word b)
  | .start => some (slotWord 0x0#4)
  | .bit0 => some (slotWord 0x1#4)
  | .bit1 => some (slotWord 0x2#4)
  | .bit2 => some (slotWord 0x3#4)
  | .bit3 => some (slotWord 0x4#4)
  | .bit4 => some (slotWord 0x5#4)
  | .bit5 => some (slotWord 0x6#4)
  | .bit6 => some (slotWord 0x7#4)
  | .bit7 => some (slotWord 0x8#4)
  | .stop0 => some (slotWord 0x9#4)
  | .stop1 => some (slotWord 0xA#4)
  | .slotUnused v => some (slotWord v)
  | .synth f a d => some (toneWord f a d)
  | .map _ | .emit | .fetch | .openSym | .nextsym | .endframe | .gapdone | .finish => none

/-! ## Words of spec/opcode_table.json -/

/-- The format of a table word of up to eight bits: the first row of the table, in its order, whose fixed bits
the word has (CMD codes 0x01 and 0x02, then the register indices); a byte that is neither is a reserved command
code, CMD being the only format of eight bits. The SLOT rows stand last in the table and their words are
register indices first. Log 2. -/
def tableByteFormat (w : Nat) : Fmt :=
  if w = 1 ∨ w = 2 then .cmd else if w < 16 then .regIdx else .cmd

/-- A word of the table with the format its length selects: eight bits as above, eleven a frame word, a whole
32-bit register value a command, eighty a tone request, none no encoding. Log 2. -/
def tableWord (nbits w : Nat) : OpWord :=
  { fmt :=
      if nbits = 0 then .noWord
      else if nbits ≤ 8 then tableByteFormat w
      else if nbits ≤ 16 then .frame11
      else if nbits ≤ 32 then .cmd
      else .toneReq
    bits := BitVec.ofNat 80 w }

/-- What the decoder reads from a word of the table. -/
def decodeTableWord (nbits w : Nat) : Option Instr :=
  match decode (tableWord nbits w) with
  | .ok i => some i
  | .error _ => none

end Sys2Proof
end

