-- ==== Sys2Proof/Machine/State.lean ====
section
/-!
DEFINITION. The state of the machine as plain data: every element of 10_state.md, the environment's coming
inputs, what the environment has observed, and the parameters of the instance; the reasons a step can stop;
the state after reset.
-/

namespace Sys2Proof.Machine

/-- A symbol of a frame (30_encoding.md R63). -/
inductive Symbol where
  | start
  | dataBit (v : Bool)
  | stop
deriving DecidableEq, Repr

/-- `STATUS.ERR` (60_exceptions.md R161). -/
inductive ErrCode where
  | ok
  | invalidArgument
  | sinkFailure
  | interrupted
deriving DecidableEq, Repr

/-- Which part of the per-byte state machine the block is in; which symbol it emits is `SYM_IDX` (10_state.md
R23). Log 12. -/
inductive Phase where
  | idle
  | emitting
  | gapWait
deriving DecidableEq, Repr

/-- The states of the per-byte state machine (10_state.md R23). -/
inductive TxState where
  | idle
  | emittingStart
  | emittingBit (k : Fin 8)
  | emittingStop (j : Fin 2)
  | gapWait
deriving DecidableEq, Repr

/-- A tone request `(F, A, D)` (30_encoding.md R64). -/
structure ToneReq where
  f : Word
  a : Sample
  d : Word
deriving DecidableEq, Repr

/-- The lazy sequence a call of the synthesizer returns: its `count` elements are determined by the tone and the
rate (40_synthesizer.md R80, R90). -/
structure SampleSeq where
  f : Word
  a : Sample
  fs : Word
  count : Nat
deriving DecidableEq, Repr

/-- What an internal unit returned when it was issued alone. Log 8. -/
inductive UnitResult where
  | symbols (l : List Symbol)
  | tone (t : ToneReq)
  | samples (q : SampleSeq)
deriving DecidableEq, Repr

/-- What happens at the register port, the message and the reset input at one step boundary
(43_host_commands.md R142). Log 4. -/
inductive PortEvent where
  /-- Nothing: the block takes its step. -/
  | idle
  /-- An operation is presented. -/
  | op (w : OpWord)
  /-- The host sets byte `i` of the message it answers reads from (30_encoding.md R73 `MSG`; R197). -/
  | msgByte (i : Nat) (b : Byte)
  /-- The reset input is asserted (70_reset_and_hazards.md R190). -/
  | resetLine
deriving DecidableEq, Repr

/-- Byte cells with strictly rising addresses. -/
abbrev Memory := List Host.Cell

/-- The machine. -/
structure State where
  -- configuration registers, R10 to R18
  sampleRate : Word
  freqOn : Word
  freqOff : Word
  ampOn : Sample
  ampOff : Sample
  symDur : Word
  gap : Word
  msgLen : Word
  -- the fields of STATUS, R26
  busy : Bool
  done : Bool
  err : ErrCode
  phase : Phase
  tone : Bool
  abortPending : Bool
  -- the position, R20 to R22
  byteIdx : Word
  symIdx : Fin 11
  -- hidden state, R31 to R34
  sampleIdx : Count
  nSym : Count
  cursor : Nat
  shreg : Byte
  treqF : Word
  treqA : Sample
  -- the environment's coming inputs (log 4, log 5, log 22)
  port : List PortEvent
  msg : Memory
  sinkIn : List SinkAnswer
  msgIn : List Bool
  delayIn : List Bool
  draws : Nat
  -- what the environment has observed, R146 (log 8, log 17)
  sink : List Sample
  reads : List (Word × Byte)
  delays : List Word
  rdOut : Option Word
  unitOut : Option UnitResult
  -- the parameters of the instance, R4 (log 15)
  params : Config.Params
deriving DecidableEq, Repr

/-- Why the machine stops. Both are safe: the spec gives the block no step there. -/
inductive Fault where
  /-- Raised by SLOT_UNUSED: a symbol index no rule produces and the spec gives no meaning (30_encoding.md R71
  (c); 93_implementation_defined.md U18, `stuck`). Safe. -/
  | slotNeverProduced (v : BitVec 4)
  /-- Raised by a step row issued where R115 does not enable it, and by `step` in a busy state that enables no
  step, which no run from reset reaches (U18, `stuck`). Log 11. Safe. -/
  | stepNotEnabled
deriving DecidableEq, Repr

/-- Why the machine refuses. Safe: nothing runs. -/
inductive Refusal where
  /-- Raised by `exec` for an instruction without a meaning (none is left). -/
  | notModelled (mnemonic : String)
  /-- Raised by `step` for a word on the port that is no operation. -/
  | undecodable (r : Reject)
deriving DecidableEq, Repr

/-- The machine after reset (10_state.md R36, 70_reset_and_hazards.md R190): every element of the block 0, with
the default parameters, an empty environment and nothing observed (log 19). -/
def State.reset : State where
  sampleRate := 0
  freqOn := 0
  freqOff := 0
  ampOn := 0
  ampOff := 0
  symDur := 0
  gap := 0
  msgLen := 0
  busy := false
  done := false
  err := .ok
  phase := .idle
  tone := false
  abortPending := false
  byteIdx := 0
  symIdx := 0
  sampleIdx := 0
  nSym := 0
  cursor := 0
  shreg := 0
  treqF := 0
  treqA := 0
  port := []
  msg := []
  sinkIn := []
  msgIn := []
  delayIn := []
  draws := 0
  sink := []
  reads := []
  delays := []
  rdOut := none
  unitOut := none
  params := Config.Params.default

end Sys2Proof.Machine
end

