-- ==== Sys2Proof/Machine/Flags.lean ====
section
/-!
DEFINITION. The codes and the layout of `STATUS` (10_state.md R23, R26, R27; 60_exceptions.md R161). The block
has no arithmetic flags (R26).
-/

namespace Sys2Proof.Machine

/-- The code of an error kind (60_exceptions.md R161). -/
def ErrCode.code : ErrCode → BitVec 2
  | .ok => 0#2
  | .invalidArgument => 1#2
  | .sinkFailure => 2#2
  | .interrupted => 3#2

/-- The state being emitted at a symbol index (30_encoding.md R62). -/
def emittingState (s : Fin 11) : TxState :=
  if s.val = 0 then .emittingStart
  else if s.val ≤ 8 then .emittingBit (Fin.ofNat 8 (s.val - 1))
  else .emittingStop (Fin.ofNat 2 (s.val - 9))

/-- The state of the per-byte state machine (10_state.md R23). -/
def State.txState (s : State) : TxState :=
  match s.phase with
  | .idle => .idle
  | .emitting => emittingState s.symIdx
  | .gapWait => .gapWait

/-- The state codes (10_state.md R23). -/
def TxState.code : TxState → BitVec 4
  | .idle => 0#4
  | .emittingStart => 1#4
  | .emittingBit _ => 2#4
  | .emittingStop _ => 3#4
  | .gapWait => 4#4

/-- `STATUS` as an RD returns it (10_state.md R27):
`{0[31:10], ABORT_PENDING, TONE, STATE[3:0], ERR[1:0], DONE, BUSY}`. -/
def statusWord (s : State) : Word :=
  0#22 ++ BitVec.ofBool s.abortPending ++ BitVec.ofBool s.tone ++ s.txState.code ++ s.err.code ++
    BitVec.ofBool s.done ++ BitVec.ofBool s.busy

end Sys2Proof.Machine
end

