-- ==== Sys2Proof/Machine/Operands.lean ====
section
/-!
DEFINITION. Operands: the framer's level function and frame (41_framer.md), the bit-to-frequency mapper
(42_transmitter.md R110), the sample count (40_synthesizer.md R81, R82) and the byte image of a sample
(20_memory.md R41).
-/

namespace Sys2Proof.Machine

/-- The level of a symbol (30_encoding.md R63). -/
def Symbol.level : Symbol → Bool
  | .start => true
  | .dataBit v => v
  | .stop => false

/-- FRAME: a byte to its 11 symbols (41_framer.md R100). -/
def frame (b : Byte) : List Symbol :=
  [.start,
   .dataBit (b.getLsbD 7), .dataBit (b.getLsbD 6), .dataBit (b.getLsbD 5), .dataBit (b.getLsbD 4),
   .dataBit (b.getLsbD 3), .dataBit (b.getLsbD 2), .dataBit (b.getLsbD 1), .dataBit (b.getLsbD 0),
   .stop, .stop]

/-- `Level(b, s)` (41_framer.md R100). -/
def level (b : Byte) (s : Fin 11) : Bool :=
  if s.val = 0 then true else if s.val ≤ 8 then b.getLsbD (8 - s.val) else false

/-- MAP: a level to its tone request (42_transmitter.md R110). -/
def mapLevel (s : State) (lv : Bool) : ToneReq :=
  if lv then { f := s.freqOn, a := s.ampOn, d := s.symDur }
  else { f := s.freqOff, a := s.ampOff, d := s.symDur }

/-- The synthesizer's input contract is broken (40_synthesizer.md R81): `Fs <= 0 or D < 0`. -/
def badArguments (d fs : Word) : Bool := decide (fs.toInt ≤ 0 ∨ d.toInt < 0)

/-- The sample count `N = (D * Fs) div 1000000` of legal arguments (40_synthesizer.md R82). -/
def sampleCount (d fs : Word) : Nat := (d.toInt * fs.toInt).toNat / 1000000

/-- The byte image of a sample, first byte sent first (20_memory.md R41). -/
def pcmBytes (v : Sample) : List Byte := [v.extractLsb' 0 8, v.extractLsb' 8 8]

/-- The byte image of what the sink has received: element `k` is bytes `2k` and `2k + 1` (20_memory.md R42). -/
def State.sinkBytes (s : State) : List Byte := s.sink.flatMap pcmBytes

/-- The samples the sink has accepted since the current transmission began: `CURSOR` of them (10_state.md
R32). -/
def State.stream (s : State) : List Sample := s.sink.drop (s.sink.length - s.cursor)

end Sys2Proof.Machine
end

