-- ==== Sys2Proof/Machine/Sine.lean ====
section
/-!
DEFINITION. The sample function (40_synthesizer.md R84 to R89): the exact real formula evaluated in rational
arithmetic. The angle is `p / q` of a turn with `q = 1000 * Fs` and `p = (F * n) mod q` (R84). The sine is
0, 1/2 or 1 in magnitude at the multiples of 1/12 of a turn where it is rational (R88); elsewhere it is enclosed
between two rational bounds. Where the bounds round alike, that is the sample; where they do not, they are taken
again at a precision at which the rounding of the lower one is that of the exact value (log 13; proved in
Laws/SineExact.lean).
-/

namespace Sys2Proof.Machine

/-- The turn fraction's denominator `q = 1000 * Fs` (40_synthesizer.md R84). -/
def turnLength (fs : Word) : Nat := 1000 * fs.toNat

/-- The turn fraction's numerator `p = (F * n) mod q` (40_synthesizer.md R84). -/
def turnIndex (f : Word) (n : Count) (fs : Word) : Nat := (f.toNat * n.toNat) % turnLength fs

/-- `p / q` of a turn folded to `m / q` of half a turn in the first quarter, where the sine has the same
magnitude, and whether the sine is not positive: `2p / q` half turns, less a whole one in the second half,
mirrored past a quarter turn. -/
def foldAngle (p q : Nat) : Bool × Nat :=
  let h := if q ≤ 2 * p then 2 * p - q else 2 * p
  (decide (q ≤ 2 * p), if q < 2 * h then q - h else h)

/-- Twice the sine of `m / q` of half a turn where that is a whole number (40_synthesizer.md R88). -/
def twiceSine (m q : Nat) : Option Nat :=
  if m = 0 then some 0 else if 6 * m = q then some 1 else if 2 * m = q then some 2 else none

/-- The first terms of the arctangent series at `1 / k`. -/
def arctanSum (k : Nat) : Nat → ℚ
  | 0 => 0
  | i + 1 => arctanSum k i + (-1) ^ i * ((1 / k) ^ (2 * i + 1) / (2 * i + 1))

/-- A lower bound of pi by Machin's formula, better by `1 / 625` with each `n`. -/
def piLower (n : Nat) : ℚ := 4 * (4 * arctanSum 5 (2 * n) - arctanSum 239 (2 * n + 1))

/-- An upper bound of pi by Machin's formula. -/
def piUpper (n : Nat) : ℚ := 4 * (4 * arctanSum 5 (2 * n + 1) - arctanSum 239 (2 * n))

/-- The first terms of the sine series at `x`. -/
def sineSum (x : ℚ) : Nat → ℚ
  | 0 => 0
  | i + 1 => sineSum x i + (-1) ^ i * (x ^ (2 * i + 1) / (2 * i + 1).factorial)

/-- A lower bound of the sine of `m / q` of half a turn in the first quarter turn. -/
def sineLower (n m q : Nat) : ℚ := max 0 (sineSum (piLower n * m / q) (2 * n))

/-- An upper bound: the sine grows no faster than its angle. -/
def sineUpper (n m q : Nat) : ℚ :=
  sineSum (piLower n * m / q) (2 * n + 1) + (piUpper n - piLower n) * m / q

/-- `RoundS` of a non-negative rational (40_synthesizer.md R85); it is odd, so this says it everywhere. -/
def roundMagnitude (r : SampleRound) (num den : Nat) : Nat :=
  match r with
  | .nearestAway => (2 * num + den) / (2 * den)
  | .towardZero => num / den
  | .nearestEven =>
    if 2 * (num % den) < den then num / den
    else if den < 2 * (num % den) then num / den + 1
    else if num / den % 2 = 0 then num / den else num / den + 1

/-- `RoundS` of a non-negative rational number. -/
def roundRat (r : SampleRound) (x : ℚ) : Nat := roundMagnitude r x.num.toNat x.den

/-- A precision at which the rounding of a sample at a multiple of `1 / (2 * q)` of a turn is determined. -/
def enoughTerms (q : Nat) : Nat := 34 * q + 10

/-- The magnitude of a sample of amplitude magnitude `a`: `RoundS(a * sin(pi * m / q))` (40_synthesizer.md R84,
R85). Log 13. -/
def sampleMagnitude (r : SampleRound) (a m q : Nat) : Nat :=
  match twiceSine m q with
  | some t => roundMagnitude r (a * t) 2
  | none =>
    if roundRat r (a * sineLower 16 m q) = roundRat r (a * sineUpper 16 m q) then roundRat r (a * sineLower 16 m q)
    else roundRat r (a * sineLower (enoughTerms q) m q)

/-- `RoundS(A * sin(2 * pi * p / q))` (40_synthesizer.md R84, R85). -/
def roundedSine (r : SampleRound) (a : Int) (p q : Nat) : Int :=
  if decide (a < 0) = (foldAngle p q).1 then (sampleMagnitude r a.natAbs (foldAngle p q).2 q : Int)
  else -(sampleMagnitude r a.natAbs (foldAngle p q).2 q : Int)

/-- `clamp16` (00_scope.md R6; 40_synthesizer.md R86). -/
def clamp16 (v : Int) : Int := max (-32768) (min 32767 v)

/-- `v` moved by a deviation of at most `SAMPLE_TOL`, inside `[-|A|, |A|]` and `[-32768, 32767]`
(40_synthesizer.md R88 (b), (c), (d)). Log 14. -/
def deviate (tol : Nat) (a : Int) (p q : Nat) (v : Int) : Int :=
  if tol = 0 ∨ p = 0 then v
  else clamp16 (max (-(a.natAbs : Int)) (min a.natAbs
    (v + max (-(tol : Int)) (min tol (Config.sampleDeviation a p q)))))

/-- `SampleFn(F, A, n, Fs)` (40_synthesizer.md R84 to R89). At a rate that is not positive the formula has no
value (log 16). -/
def sampleFn (c : Config.Params) (f : Word) (a : Sample) (n : Count) (fs : Word) : Sample :=
  if 0 < fs.toInt then
    BitVec.ofInt 16 (deviate c.sampleTol a.toInt (turnIndex f n fs) (turnLength fs)
      (clamp16 (roundedSine c.sampleRound a.toInt (turnIndex f n fs) (turnLength fs))))
  else Config.rateless f a n fs

/-- Element `n` of a sequence the synthesizer returns (40_synthesizer.md R80). -/
def SampleSeq.get (c : Config.Params) (q : SampleSeq) (n : Nat) : Sample :=
  sampleFn c q.f q.a (BitVec.ofNat 64 n) q.fs

/-- The whole sequence, in index order. -/
def SampleSeq.toList (c : Config.Params) (q : SampleSeq) : List Sample := (List.range q.count).map (q.get c)

end Sys2Proof.Machine
end

