-- ==== Sys2Proof/Machine/Ops.lean ====
section
/-!
DEFINITION. The shared operations: the message memory, the draws from the environment, register reads and
writes, the error entry (60_exceptions.md R171), reset (70_reset_and_hazards.md R190), the call of the
synthesizer (40_synthesizer.md R80) and the opening of a symbol (42_transmitter.md R117).
-/

namespace Sys2Proof.Machine

/-- What a step and a meaning answer. -/
abbrev Result := Host.Outcome State Fault Refusal

/-! ## Message memory -/

/-- The canonical form of a memory: strictly rising addresses. Nothing listed is redundant, since an address
that is not listed has no value of its own (log 22). -/
def Memory.wf : Memory → Bool
  | [] => true
  | [_] => true
  | (a, _) :: (a', b') :: rest => decide (a < a') && Memory.wf ((a', b') :: rest)

/-- The byte listed at an address, if any. -/
def Memory.read (m : Memory) (i : Nat) : Option Byte :=
  match m with
  | [] => none
  | (a, b) :: rest => if a = i then some b else Memory.read rest i

/-- The memory with a byte set, in canonical form. -/
def Memory.write (m : Memory) (i : Nat) (b : Byte) : Memory :=
  match m with
  | [] => [(i, b)]
  | (a, x) :: rest =>
    if i < a then (i, b) :: (a, x) :: rest
    else if i = a then (i, b) :: rest
    else (a, x) :: Memory.write rest i b

/-! ## Draws from the environment (log 5) -/

/-- The sink's answer to the sample presented now (20_memory.md R43). -/
def drawSink (s : State) : SinkAnswer × State :=
  match s.sinkIn with
  | a :: rest => (a, { s with sinkIn := rest })
  | [] => (Config.sinkAnswer s.draws, { s with draws := s.draws + 1 })

/-- Whether the message read is answered now (20_memory.md R51). -/
def drawMessageReady (s : State) : Bool × State :=
  match s.msgIn with
  | a :: rest => (a, { s with msgIn := rest })
  | [] => (Config.messageReady s.draws, { s with draws := s.draws + 1 })

/-- Whether the outstanding delay request has been completed (60_exceptions.md R176). -/
def drawDelayDone (s : State) : Bool × State :=
  match s.delayIn with
  | a :: rest => (a, { s with delayIn := rest })
  | [] => (Config.delayDone s.draws, { s with draws := s.draws + 1 })

/-- The byte the host answers for an index (20_memory.md R51); a free value where the message lists none
(log 22). -/
def messageByte (s : State) (i : Word) : Byte × State :=
  match s.msg.read i.toNat with
  | some b => (b, s)
  | none => (Config.messageByte s.draws, { s with draws := s.draws + 1 })

/-- `MemRead(i, 1)`: the byte, and the read recorded (20_memory.md R51). -/
def memRead (s : State) (i : Word) : Byte × State :=
  ((messageByte s i).1, { (messageByte s i).2 with reads := s.reads ++ [(i, (messageByte s i).1)] })

/-- The port with the turn kept by the block: the next event is again the block's own step, unless it is the reset
input, which ends any wait (70_reset_and_hazards.md R190, R201). -/
def heldPort : List PortEvent → List PortEvent
  | [] => []
  | .resetLine :: rest => .resetLine :: rest
  | e :: rest => .idle :: e :: rest

/-- A step that has begun and not completed keeps the block's turn: every host operation is ordered before or after
it (00_scope.md R6; 43_host_commands.md R142). Log 6. -/
def holdTurn (s : State) : State := { s with port := heldPort s.port }

/-! ## Errors and reset -/

/-- The error entry `raise E` (60_exceptions.md R171): one sequence for all three kinds. `BYTE_IDX`, `SYM_IDX` and
the hidden elements keep their values. -/
def raiseError (e : ErrCode) (s : State) : State :=
  { s with
    err := e, busy := false, done := true, phase := .idle, tone := false, abortPending := false }

/-- Reset (70_reset_and_hazards.md R190, R191, R192): every element of the block at its reset value; the sink, the
message, the delay capability and the coming inputs are outside the block (log 18). -/
def resetBlock (s : State) : State :=
  { s with
    sampleRate := 0, freqOn := 0, freqOff := 0, ampOn := 0, ampOff := 0, symDur := 0, gap := 0, msgLen := 0,
    busy := false, done := false, err := .ok, phase := .idle, tone := false, abortPending := false,
    byteIdx := 0, symIdx := 0, sampleIdx := 0, nSym := 0, cursor := 0, shreg := 0, treqF := 0, treqA := 0 }

/-! ## Commands and register accesses -/

/-- TRANSMIT (43_host_commands.md R140). -/
def startTransmission (s : State) : State :=
  if s.busy then s
  else
    { s with
      busy := true, done := false, err := .ok, abortPending := false, phase := .idle, tone := false,
      byteIdx := 0, symIdx := 0, sampleIdx := 0, nSym := 0, cursor := 0 }

/-- ABORT (43_host_commands.md R141); with `HAS_ABORT` false the code is reserved (30_encoding.md R70). -/
def requestAbort (s : State) : State :=
  if s.params.hasAbort && s.busy then { s with abortPending := true } else s

/-- Issue the command of a code (30_encoding.md R70). -/
def issueCommand (code : BitVec 8) (s : State) : State :=
  if code = 0x01#8 then startTransmission s
  else if code = 0x02#8 then requestAbort s
  else s

/-- Store into a configuration register, ignored while `BUSY` = 1 (10_state.md R19). -/
def writeConfig (s stored : State) : State := if s.busy then s else stored

/-- `WR(r, w)` (43_host_commands.md R143). -/
def writeReg (r : Reg) (w : Word) (s : State) : State :=
  match r with
  | .cmd => issueCommand (w.extractLsb' 0 8) s
  | .status => s
  | .sampleRate => writeConfig s { s with sampleRate := w }
  | .freqOn => writeConfig s { s with freqOn := w }
  | .freqOff => writeConfig s { s with freqOff := w }
  | .ampOn => writeConfig s { s with ampOn := w.extractLsb' 0 16 }
  | .ampOff => writeConfig s { s with ampOff := w.extractLsb' 0 16 }
  | .symDur => writeConfig s { s with symDur := w }
  | .gap => writeConfig s { s with gap := w }
  | .msgLen => writeConfig s { s with msgLen := w }
  | .byteIdx => s
  | .symIdx => s
  | .reserved _ => s

/-- The value `RD(r)` returns (43_host_commands.md R144). -/
def readReg (r : Reg) (s : State) : Word :=
  match r with
  | .cmd => 0
  | .status => statusWord s
  | .sampleRate => s.sampleRate
  | .freqOn => s.freqOn
  | .freqOff => s.freqOff
  | .ampOn => s.ampOn.setWidth 32
  | .ampOff => s.ampOff.setWidth 32
  | .symDur => s.symDur
  | .gap => s.gap
  | .msgLen => s.msgLen
  | .byteIdx => s.byteIdx
  | .symIdx => BitVec.ofNat 32 s.symIdx.val
  | .reserved _ => 0

/-- An access to a register: a write has its effect, a read returns its value to the host and changes nothing
else (43_host_commands.md R143, R144). -/
def accessReg (r : Reg) (a : Access) (s : State) : State :=
  match a with
  | .rd => { s with rdOut := some (readReg r s) }
  | .wr w => writeReg r w s

/-! ## Synthesizer call and symbol opening -/

/-- The state a legal call of the synthesizer leaves: `N_SYM` the sample count, `SAMPLE_IDX` 0 (40_synthesizer.md
R80, R82). -/
def startWindow (d : Word) (s : State) : State :=
  { s with nSym := BitVec.ofNat 64 (sampleCount d s.sampleRate), sampleIdx := 0 }

/-- The sequence a legal call of the synthesizer returns (40_synthesizer.md R80): the tone, the rate and the sample
count determine every element (R90). -/
def synthesize (s : State) (t : ToneReq) : SampleSeq :=
  { f := t.f, a := t.a, fs := s.sampleRate, count := sampleCount t.d s.sampleRate }

/-- OPEN at a symbol index (42_transmitter.md R117), in the order of its pseudocode: the tone request is latched
before the arguments are checked. `SYM_IDX` holds the index already in every use of a transmission (log 9). -/
def openSymbol (i : Fin 11) (s : State) : State :=
  let lv := level s.shreg i
  let t := mapLevel s lv
  let s1 := { s with symIdx := i, treqF := t.f, treqA := t.a }
  if badArguments t.d s.sampleRate then raiseError .invalidArgument s1
  else { startWindow t.d s1 with phase := .emitting, tone := lv }

/-- The sample the block presents (42_transmitter.md R118). -/
def currentSample (s : State) : Sample := sampleFn s.params s.treqF s.treqA s.sampleIdx s.sampleRate

/-- The sink accepts a sample: it is element `CURSOR` of what the sink has received (42_transmitter.md R118). -/
def acceptSample (v : Sample) (s : State) : State :=
  { s with sink := s.sink ++ [v], sampleIdx := s.sampleIdx + 1, cursor := s.cursor + 1 }

/-! ## The step relation -/

/-- The step R115 enables while `BUSY` = 1; none while `BUSY` = 0, and none in the busy states no rule reaches. In
GapWait it is GAPDONE, which waits for the completion (R121). -/
def selectStep (s : State) : Option Instr :=
  if s.busy then
    match s.phase with
    | .idle =>
      if s.byteIdx.toNat < s.msgLen.toNat then some .fetch
      else if s.byteIdx = s.msgLen then some .finish
      else none
    | .emitting =>
      if s.sampleIdx.toNat < s.nSym.toNat then some .emit
      else if s.sampleIdx = s.nSym then
        if s.symIdx.val < 10 then some .nextsym else some .endframe
      else none
    | .gapWait => some .gapdone
  else none

/-- Run a step row's effect where R115 enables it (log 11). -/
def whenEnabled (i : Instr) (s : State) (effect : State) : Result :=
  if selectStep s = some i then .next effect else .fault .stepNotEnabled

end Sys2Proof.Machine
end

