-- ==== Sys2Proof/Machine/Framer.lean ====
section
/-!
DEFINITION. The framer (41_framer.md): FRAME, and the symbol kinds, each of which is opened at its own symbol index
(30_encoding.md R62; 42_transmitter.md R117).
-/

namespace Sys2Proof.Machine

/-- FRAME, R100: the 11 symbols of a byte; combinational, so nothing else changes (log 8). -/
def execFrame (b : Byte) (s : State) : Result := .next { s with unitOut := some (.symbols (frame b)) }

/-- START, R101: the symbol at index 0, level 1. -/
def execStart (s : State) : Result := .next (openSymbol 0 s)

/-- BIT0, R102: the symbol at index 1, level bit 7 of the byte. -/
def execBit0 (s : State) : Result := .next (openSymbol 1 s)

/-- BIT1, R102: the symbol at index 2, level bit 6 of the byte. -/
def execBit1 (s : State) : Result := .next (openSymbol 2 s)

/-- BIT2, R102: the symbol at index 3, level bit 5 of the byte. -/
def execBit2 (s : State) : Result := .next (openSymbol 3 s)

/-- BIT3, R102: the symbol at index 4, level bit 4 of the byte. -/
def execBit3 (s : State) : Result := .next (openSymbol 4 s)

/-- BIT4, R102: the symbol at index 5, level bit 3 of the byte. -/
def execBit4 (s : State) : Result := .next (openSymbol 5 s)

/-- BIT5, R102: the symbol at index 6, level bit 2 of the byte. -/
def execBit5 (s : State) : Result := .next (openSymbol 6 s)

/-- BIT6, R102: the symbol at index 7, level bit 1 of the byte. -/
def execBit6 (s : State) : Result := .next (openSymbol 7 s)

/-- BIT7, R102: the symbol at index 8, level bit 0 of the byte. -/
def execBit7 (s : State) : Result := .next (openSymbol 8 s)

/-- STOP0, R103: the symbol at index 9, level 0. -/
def execStop0 (s : State) : Result := .next (openSymbol 9 s)

/-- STOP1, R103: the symbol at index 10, level 0. -/
def execStop1 (s : State) : Result := .next (openSymbol 10 s)

/-- SLOT_UNUSED, 30_encoding.md R71 (c): no rule produces the value and the spec gives it no meaning; the block is
stuck (93_implementation_defined.md U18). -/
def execSlotUnused (v : BitVec 4) (_s : State) : Result := .fault (.slotNeverProduced v)

end Sys2Proof.Machine
end

