-- ==== Sys2Proof/Machine/HostOps.lean ====
section
/-!
DEFINITION. The host operations (43_host_commands.md): the commands, WR and RD.
-/

namespace Sys2Proof.Machine

/-- TRANSMIT, R140. -/
def execTransmit (s : State) : Result := .next (startTransmission s)

/-- ABORT, R141. -/
def execAbort (s : State) : Result := .next (requestAbort s)

/-- CMD_RESERVED, 30_encoding.md R70: nothing changes, nothing is reported, whatever the code. -/
def execCmdReserved (_code : BitVec 8) (s : State) : Result := .next s

/-- WR, R143. -/
def execWr (r : Reg) (w : Word) (s : State) : Result := .next (writeReg r w s)

/-- RD, R144. -/
def execRd (r : Reg) (s : State) : Result := .next (accessReg r .rd s)

end Sys2Proof.Machine
end

