-- ==== Sys2Proof/Machine/RegisterRows.lean ====
section
/-!
DEFINITION. The register rows of the table (30_encoding.md R72): an access of the host to the named register
(43_host_commands.md R143, R144; the register's own rule is in 10_state.md).
-/

namespace Sys2Proof.Machine

/-- REG_CMD, R25. -/
def execRegCmd (a : Access) (s : State) : Result := .next (accessReg .cmd a s)

/-- REG_STATUS, R27. -/
def execRegStatus (a : Access) (s : State) : Result := .next (accessReg .status a s)

/-- REG_SAMPLE_RATE, R11. -/
def execRegSampleRate (a : Access) (s : State) : Result := .next (accessReg .sampleRate a s)

/-- REG_FREQ_ON, R12. -/
def execRegFreqOn (a : Access) (s : State) : Result := .next (accessReg .freqOn a s)

/-- REG_FREQ_OFF, R13. -/
def execRegFreqOff (a : Access) (s : State) : Result := .next (accessReg .freqOff a s)

/-- REG_AMP_ON, R14. -/
def execRegAmpOn (a : Access) (s : State) : Result := .next (accessReg .ampOn a s)

/-- REG_AMP_OFF, R15. -/
def execRegAmpOff (a : Access) (s : State) : Result := .next (accessReg .ampOff a s)

/-- REG_SYM_DUR, R16. -/
def execRegSymDur (a : Access) (s : State) : Result := .next (accessReg .symDur a s)

/-- REG_GAP, R17. -/
def execRegGap (a : Access) (s : State) : Result := .next (accessReg .gap a s)

/-- REG_MSG_LEN, R18. -/
def execRegMsgLen (a : Access) (s : State) : Result := .next (accessReg .msgLen a s)

/-- REG_BYTE_IDX, R21. -/
def execRegByteIdx (a : Access) (s : State) : Result := .next (accessReg .byteIdx a s)

/-- REG_SYM_IDX, R22. -/
def execRegSymIdx (a : Access) (s : State) : Result := .next (accessReg .symIdx a s)

/-- REG_RESERVED, R28. -/
def execRegReserved (lo : BitVec 2) (a : Access) (s : State) : Result :=
  .next (accessReg (.reserved lo) a s)

end Sys2Proof.Machine
end

