-- ==== Sys2Proof/Machine/Synthesizer.lean ====
section
/-!
DEFINITION. The bit-to-frequency mapper (42_transmitter.md R110) and the tone synthesizer (40_synthesizer.md R80),
issued alone.
-/

namespace Sys2Proof.Machine

/-- MAP, R110: the tone request of a level; nothing else changes (log 8). -/
def execMap (lv : Bool) (s : State) : Result := .next { s with unitOut := some (.tone (mapLevel s lv)) }

/-- SYNTH, R80: InvalidArgument on a broken input contract (R81), else the lazy sequence of `N` samples, with
`N_SYM` and `SAMPLE_IDX` written as the call of the symbol-open step writes them (log 10). -/
def execSynth (f : Word) (a : Sample) (d : Word) (s : State) : Result :=
  if badArguments d s.sampleRate then .next (raiseError .invalidArgument s)
  else
    .next { startWindow d s with unitOut := some (.samples (synthesize s { f := f, a := a, d := d })) }

end Sys2Proof.Machine
end

