-- ==== Sys2Proof/Machine/Transmitter.lean ====
section
/-!
DEFINITION. The steps of the transmitter (42_transmitter.md R116 to R122), each run where R115 enables it.
-/

namespace Sys2Proof.Machine

/-- FETCH once the abort test is passed: the byte is read when the host answers, and symbol 0 opened. Until then FETCH
has not happened, and no host operation falls inside it (R116; 00_scope.md R6; log 6). -/
def fetchByte (s : State) : State :=
  let d := drawMessageReady s
  if d.1 then
    let r := memRead d.2 s.byteIdx
    openSymbol 0 { r.2 with shreg := r.1, symIdx := 0 }
  else holdTurn d.2

/-- FETCH, R116: a pending ABORT is looked at first, then the byte is read. -/
def execFetch (s : State) : Result :=
  whenEnabled .fetch s (if s.abortPending then raiseError .interrupted s else fetchByte s)

/-- OPEN, R117, at the symbol index `SYM_IDX` holds. -/
def execOpenSym (s : State) : Result := .next (openSymbol s.symIdx s)

/-- EMIT, R118. -/
def execEmit (s : State) : Result :=
  whenEnabled .emit s
    (let d := drawSink s
     match d.1 with
     | .accept => acceptSample (currentSample s) d.2
     | .stall => d.2
     | .fail => raiseError .sinkFailure d.2)

/-- NEXTSYM, R119: `SYM_IDX` is advanced before a pending ABORT is looked at. -/
def execNextsym (s : State) : Result :=
  whenEnabled .nextsym s
    (let s1 := { s with symIdx := s.symIdx + 1 }
     if s.abortPending then raiseError .interrupted s1 else openSymbol s1.symIdx s1)

/-- ENDFRAME, R120: with a gap, one delay is requested and the block waits. -/
def execEndframe (s : State) : Result :=
  whenEnabled .endframe s
    (let s1 := { s with byteIdx := s.byteIdx + 1, symIdx := 0, tone := false }
     if 0 < s.gap.toNat then { s1 with phase := .gapWait, delays := s.delays ++ [s.gap] }
     else { s1 with phase := .idle })

/-- GAPDONE, R121: to Idle once DelayDone has come; until then the block waits in GapWait. -/
def execGapdone (s : State) : Result :=
  whenEnabled .gapdone s
    (let d := drawDelayDone s
     if d.1 then { d.2 with phase := .idle } else d.2)

/-- FINISH, R122. -/
def execFinish (s : State) : Result :=
  whenEnabled .finish s { s with busy := false, done := true, err := .ok, abortPending := false }

end Sys2Proof.Machine
end

