-- ==== Sys2Proof/Machine/Dispatch.lean ====
section
/-! DEFINITION. The meaning of every operation, one arm each. -/

namespace Sys2Proof.Machine

def exec (i : Instr) (s : State) : Host.Outcome State Fault Refusal :=
  match i with
  | .transmit => Sys2Proof.Machine.execTransmit s
  | .abort => Sys2Proof.Machine.execAbort s
  | .cmdReserved code => Sys2Proof.Machine.execCmdReserved code s
  | .wr r w => Sys2Proof.Machine.execWr r w s
  | .rd r => Sys2Proof.Machine.execRd r s
  | .regCmd a => Sys2Proof.Machine.execRegCmd a s
  | .regStatus a => Sys2Proof.Machine.execRegStatus a s
  | .regSampleRate a => Sys2Proof.Machine.execRegSampleRate a s
  | .regFreqOn a => Sys2Proof.Machine.execRegFreqOn a s
  | .regFreqOff a => Sys2Proof.Machine.execRegFreqOff a s
  | .regAmpOn a => Sys2Proof.Machine.execRegAmpOn a s
  | .regAmpOff a => Sys2Proof.Machine.execRegAmpOff a s
  | .regSymDur a => Sys2Proof.Machine.execRegSymDur a s
  | .regGap a => Sys2Proof.Machine.execRegGap a s
  | .regMsgLen a => Sys2Proof.Machine.execRegMsgLen a s
  | .regByteIdx a => Sys2Proof.Machine.execRegByteIdx a s
  | .regSymIdx a => Sys2Proof.Machine.execRegSymIdx a s
  | .regReserved lo a => Sys2Proof.Machine.execRegReserved lo a s
  | .frame b => Sys2Proof.Machine.execFrame b s
  | .start => Sys2Proof.Machine.execStart s
  | .bit0 => Sys2Proof.Machine.execBit0 s
  | .bit1 => Sys2Proof.Machine.execBit1 s
  | .bit2 => Sys2Proof.Machine.execBit2 s
  | .bit3 => Sys2Proof.Machine.execBit3 s
  | .bit4 => Sys2Proof.Machine.execBit4 s
  | .bit5 => Sys2Proof.Machine.execBit5 s
  | .bit6 => Sys2Proof.Machine.execBit6 s
  | .bit7 => Sys2Proof.Machine.execBit7 s
  | .stop0 => Sys2Proof.Machine.execStop0 s
  | .stop1 => Sys2Proof.Machine.execStop1 s
  | .slotUnused v => Sys2Proof.Machine.execSlotUnused v s
  | .map lv => Sys2Proof.Machine.execMap lv s
  | .synth f a d => Sys2Proof.Machine.execSynth f a d s
  | .emit => Sys2Proof.Machine.execEmit s
  | .fetch => Sys2Proof.Machine.execFetch s
  | .openSym => Sys2Proof.Machine.execOpenSym s
  | .nextsym => Sys2Proof.Machine.execNextsym s
  | .endframe => Sys2Proof.Machine.execEndframe s
  | .gapdone => Sys2Proof.Machine.execGapdone s
  | .finish => Sys2Proof.Machine.execFinish s

end Sys2Proof.Machine
end

