-- ==== Sys2Proof/Machine/Schedule.lean ====
section
/-!
DEFINITION. What happens at one step boundary (42_transmitter.md R115; 43_host_commands.md R142): the next port
event, or the block's own step.
-/

namespace Sys2Proof.Machine

/-- The block's own step: the one R115 enables. While `BUSY` = 0 it does nothing (60_exceptions.md R180); a busy
state that enables no step is stuck (93_implementation_defined.md U18). -/
def blockStep (s : State) : Result :=
  match selectStep s with
  | some i => exec i s
  | none => if s.busy then .fault .stepNotEnabled else .next s

/-- Run the operation a word on the port stands for. -/
def runWord (w : OpWord) (s : State) : Result :=
  match decode w with
  | .ok i => exec i s
  | .error r => .refused (.undecodable r)

/-- Run one port event. -/
def runEvent (e : PortEvent) (s : State) : Result :=
  match e with
  | .idle => blockStep s
  | .op w => runWord w s
  | .msgByte i b => .next { s with msg := s.msg.write i b }
  | .resetLine => .next (resetBlock s)

/-- One step boundary: the first port event is taken and run; with none left the block takes its step. Log 4. -/
def stepBoundary (s : State) : Result :=
  match s.port with
  | [] => blockStep s
  | e :: rest => runEvent e { s with port := rest }

/-- The state with a word presented at the port before everything else. Log 3. -/
def presentWord (s : State) (w : OpWord) : State := { s with port := .op w :: s.port }

end Sys2Proof.Machine
end

