-- ==== Sys2Proof/Machine/Step.lean ====
section
/-! DEFINITION. The step, and a word of the table placed where the step fetches. -/

namespace Sys2Proof.Machine

/-- One step of the machine. -/
def step (s : State) : Host.Outcome State Fault Refusal := stepBoundary s

/-- The state in which the very next step runs a word of the table. -/
def State.withFetchWord (s : State) (nbits w : Nat) : State := presentWord s (tableWord nbits w)

end Sys2Proof.Machine
end

