-- ==== Sys2Proof/Safety.lean ====
section
/-!
DEFINITION. What claims are stated in: the host-only port, the stream of a message as a function (42_transmitter.md
R112), the invariants of 10_state.md R35, and the sample formula over the real sine (40_synthesizer.md R84).
-/

namespace Sys2Proof.Safety

open Sys2Proof.Machine

/-! ## The stream as a function -/

/-- The window of a level: the samples the synthesizer returns for its tone request (42_transmitter.md R112). -/
def window (s : State) (lv : Bool) : List Sample := (synthesize s (mapLevel s lv)).toList s.params

/-- The samples of a byte's frame (R112). -/
def frameSamples (s : State) (b : Byte) : List Sample := (frame b).flatMap fun y => window s y.level

/-- The stream of a message (R112). -/
def messageSamples (s : State) (bytes : List Byte) : List Sample := bytes.flatMap (frameSamples s)

/-- The one sample count of a transmission (40_synthesizer.md R82). -/
def windowLength (s : State) : Nat := sampleCount s.symDur s.sampleRate

/-- How many message bytes the current transmission has read: one for each frame completed and one for the frame
being emitted (20_memory.md R51). -/
def readCount (s : State) : Nat := s.byteIdx.toNat + (if s.phase = .emitting then 1 else 0)

/-- The message reads of the current transmission. -/
def runReads (s : State) : List (Word × Byte) := s.reads.drop (s.reads.length - readCount s)

/-- The bytes the host has answered in the current transmission. -/
def runBytes (s : State) : List Byte := (runReads s).map Prod.snd

/-! ## The host's side -/

/-- A word on the host's register port: the other formats stand on no port of the block (log 7). -/
def hostWord (w : OpWord) : Bool :=
  match w.fmt with
  | .cmd | .write | .read | .regIdx => true
  | .frame11 | .slot | .toneReq | .noWord => false

/-- An event the environment of the hardware can cause. -/
def hostEvent : PortEvent → Bool
  | .op w => hostWord w
  | .idle | .msgByte _ _ | .resetLine => true

/-- Every coming event is one the environment of the hardware can cause. -/
def HostOnly (s : State) : Prop := ∀ e ∈ s.port, hostEvent e = true

/-! ## States the rules give, written out -/

/-- The synthesizer's input contract (40_synthesizer.md R81). -/
def LegalArguments (s : State) : Prop := 0 < s.sampleRate.toInt ∧ 0 ≤ s.symDur.toInt

/-- The state OPEN leaves with legal arguments, at symbol index `i` and level `lv` (42_transmitter.md R117, R110;
40_synthesizer.md R82). -/
def openedAt (i : Fin 11) (lv : Bool) (s : State) : State :=
  { s with
    symIdx := i
    treqF := if lv then s.freqOn else s.freqOff
    treqA := if lv then s.ampOn else s.ampOff
    nSym := BitVec.ofNat 64 ((s.symDur.toInt * s.sampleRate.toInt).toNat / 1000000)
    sampleIdx := 0
    phase := .emitting
    tone := lv }

/-- The state an error entry leaves (60_exceptions.md R171). -/
def endedWith (e : ErrCode) (s : State) : State :=
  { s with
    err := e
    busy := false
    done := true
    phase := .idle
    tone := false
    abortPending := false }

/-- The state OPEN leaves with arguments that break the contract: the tone request is latched, then InvalidArgument is
raised (42_transmitter.md R117). -/
def invalidAt (i : Fin 11) (lv : Bool) (s : State) : State :=
  endedWith .invalidArgument
    { s with
      symIdx := i
      treqF := if lv then s.freqOn else s.freqOff
      treqA := if lv then s.ampOn else s.ampOff }

/-- The state EMIT leaves for each answer of the sink, the draw already taken (42_transmitter.md R118). -/
def afterAnswer (a : SinkAnswer) (v : Sample) (s : State) : State :=
  match a with
  | .accept => { s with sink := s.sink ++ [v], sampleIdx := s.sampleIdx + 1, cursor := s.cursor + 1 }
  | .stall => s
  | .fail => endedWith .sinkFailure s

/-- The state FETCH leaves once the host has answered with a byte, before symbol 0 is opened (42_transmitter.md
R116). -/
def afterRead (b : Byte) (s : State) : State :=
  { s with reads := s.reads ++ [(s.byteIdx, b)], shreg := b }

/-- The port a step leaves that has begun and not completed: the block's own turn comes first again, unless the reset
input is next (00_scope.md R6; 43_host_commands.md R142). Log 6. -/
def KeepsTurn (before after : List PortEvent) : Prop :=
  (before = [] → after = []) ∧
  (∀ rest, before = .resetLine :: rest → after = before) ∧
  (∀ e rest, before = e :: rest → e ≠ .resetLine → after = .idle :: before)

/-! ## Invariants -/

/-- 10_state.md R35 and the rules of the flags (R26), between any two steps. Clause (c) is R35 (c) while `BUSY` = 1:
with `BUSY` = 0 the host may write a shorter `MSG_LEN` (log 20). -/
structure Inv (s : State) : Prop where
  /-- R35 (a). -/
  idle_of_not_busy : s.busy = false → s.phase = .idle
  /-- R35 (b). -/
  quiet_outside_symbol : s.phase ≠ .emitting → s.tone = false ∧ (s.err = .ok → s.symIdx = 0)
  /-- R35 (c). -/
  byte_le_length : s.busy = true → s.byteIdx.toNat ≤ s.msgLen.toNat
  byte_lt_length : s.phase = .emitting → s.byteIdx.toNat < s.msgLen.toNat
  /-- R35 (d). -/
  sample_le_count : s.phase = .emitting → s.sampleIdx.toNat ≤ s.nSym.toNat
  /-- R35 (e). -/
  cursor_emitting : s.phase = .emitting →
    s.cursor = (11 * s.byteIdx.toNat + s.symIdx.val) * windowLength s + s.sampleIdx.toNat
  cursor_between : s.busy = true → s.phase ≠ .emitting → s.cursor = 11 * s.byteIdx.toNat * windowLength s
  /-- R35 (f). -/
  done_of_err : s.err ≠ .ok → s.done = true
  /-- R26: `BUSY` and `DONE` are never both 1. -/
  not_busy_and_done : s.busy = true → s.done = false
  /-- R26, R167: a pending abort belongs to the transmission in progress. -/
  abort_of_busy : s.abortPending = true → s.busy = true ∧ s.params.hasAbort = true
  /-- R117: the symbol being emitted was opened with legal arguments, its count and its tone request. -/
  opened : s.phase = .emitting →
    badArguments s.symDur s.sampleRate = false ∧ s.nSym = BitVec.ofNat 64 (windowLength s) ∧
    s.tone = level s.shreg s.symIdx ∧
    s.treqF = (mapLevel s s.tone).f ∧ s.treqA = (mapLevel s s.tone).a
  /-- R81: past the first byte the arguments have been checked. -/
  legal_after_first : s.busy = true → s.byteIdx ≠ 0 → badArguments s.symDur s.sampleRate = false
  /-- The message is in canonical form (log 22). -/
  message_wf : Memory.wf s.msg = true

/-- What the sink has received in the current transmission is the beginning of the stream of the bytes read, the bytes
were read once each in ascending order, and the frame being emitted is that of the last byte read (42_transmitter.md R123;
20_memory.md R46, R51; 10_state.md R34). -/
structure StreamInv (s : State) : Prop where
  cursor_le_received : s.cursor ≤ s.sink.length
  reads_in_order : s.busy = true →
    readCount s ≤ s.reads.length ∧ (runReads s).map Prod.fst = (List.range (readCount s)).map (BitVec.ofNat 32)
  frame_of_last_byte : s.phase = .emitting → (runBytes s).getLast? = some s.shreg
  stream_is_prefix : s.busy = true → s.stream = (messageSamples s (runBytes s)).take s.cursor

/-! ## The exact sample -/

/-- `RoundS` on the reals (40_synthesizer.md R85). -/
noncomputable def roundReal (r : SampleRound) (x : ℝ) : Int :=
  match r with
  | .nearestAway => if 0 ≤ x then ⌊x + 1 / 2⌋ else -⌊-x + 1 / 2⌋
  | .towardZero => if 0 ≤ x then ⌊x⌋ else -⌊-x⌋
  | .nearestEven =>
    if x - ⌊x⌋ < 1 / 2 then ⌊x⌋
    else if 1 / 2 < x - ⌊x⌋ then ⌊x⌋ + 1
    else if ⌊x⌋ % 2 = 0 then ⌊x⌋ else ⌊x⌋ + 1

/-- `clamp16(RoundS(A * sin(2 * pi * (F * n) / (1000 * Fs))))` (40_synthesizer.md R84). -/
noncomputable def exactSample (r : SampleRound) (f : Word) (a : Sample) (n : Count) (fs : Word) : Int :=
  clamp16 (roundReal r
    (a.toInt * Real.sin (2 * Real.pi * ((f.toNat : ℝ) * n.toNat) / (1000 * (fs.toInt : ℝ)))))

end Sys2Proof.Safety
end

