-- ==== Sys2Proof/Certificates/Slice0/Obligations.lean ====
section
/-!
DEFINITION. The statements for the provers, by the files of the spec. A statement gives the whole next state as a record
update of the state before, so that it says the result, the completion and the frame at once. The fields `rdOut`,
`unitOut` and the coming inputs are the model's own (log 5, log 8).
-/

open Sys2Proof Sys2Proof.Machine Sys2Proof.Safety

/-! ## Reset (10_state.md R36, 70_reset_and_hazards.md) -/

/-- R36: every element of the table has the value 0, `STATE` is Idle, and every register reads 0. -/
def Obligations.ResetGivesEveryElementItsValue : Prop :=
  let s := State.reset
  (s.sampleRate = 0 ∧ s.freqOn = 0 ∧ s.freqOff = 0 ∧ s.ampOn = 0 ∧ s.ampOff = 0 ∧ s.symDur = 0 ∧ s.gap = 0 ∧
    s.msgLen = 0) ∧
  (s.busy = false ∧ s.done = false ∧ s.err = .ok ∧ s.txState = .idle ∧ s.tone = false ∧ s.abortPending = false) ∧
  (s.byteIdx = 0 ∧ s.symIdx = 0) ∧
  (s.sampleIdx = 0 ∧ s.nSym = 0 ∧ s.cursor = 0 ∧ s.shreg = 0 ∧ s.treqF = 0 ∧ s.treqA = 0) ∧
  ∀ r : Reg, readReg r s = 0

/-- R190 to R192: the reset input sets every element of the block to its reset value between two steps, whatever the block
was doing, and leaves the environment and what it has received alone (log 18). -/
def Obligations.ResetInputResetsTheBlockAlone : Prop :=
  ∀ (s : State) (rest : List PortEvent), s.port = .resetLine :: rest →
    step s = .next
      { State.reset with
        port := rest, msg := s.msg, sinkIn := s.sinkIn, msgIn := s.msgIn, delayIn := s.delayIn, draws := s.draws,
        sink := s.sink, reads := s.reads, delays := s.delays, rdOut := s.rdOut, unitOut := s.unitOut,
        params := s.params }

/-! ## Host operations (43_host_commands.md, 30_encoding.md R70, R72) -/

/-- R140: a TRANSMIT while `BUSY` = 0 starts at byte 0 with `STATUS` = 0x00000001; while `BUSY` = 1 it changes nothing. -/
def Obligations.TransmitStartsOnlyWhenIdle : Prop :=
  ∀ s : State,
    (s.busy = false →
      exec .transmit s = .next
        { s with
          busy := true, done := false, err := .ok, abortPending := false, phase := .idle, tone := false,
          byteIdx := 0, symIdx := 0, sampleIdx := 0, nSym := 0, cursor := 0 } ∧
      ∀ t, exec .transmit s = .next t → statusWord t = 0x00000001#32) ∧
    (s.busy = true → exec .transmit s = .next s)

/-- R141: ABORT is latched while `BUSY` = 1 and otherwise changes nothing; it exists where `HAS_ABORT` is true. -/
def Obligations.AbortLatchesOnlyWhileBusy : Prop :=
  ∀ s : State,
    (s.params.hasAbort = true → s.busy = true → exec .abort s = .next { s with abortPending := true }) ∧
    (s.busy = false ∨ s.params.hasAbort = false → exec .abort s = .next s)

/-- R70: the code in bits 7:0 of a write to `CMD` selects the command; every other code, and 0x02 without `HAS_ABORT`,
changes nothing. -/
def Obligations.CommandCodesSelectTheCommand : Prop :=
  ∀ (s : State) (w : Word),
    (w.extractLsb' 0 8 = 0x01#8 → exec (.wr .cmd w) s = exec .transmit s) ∧
    (w.extractLsb' 0 8 = 0x02#8 → exec (.wr .cmd w) s = exec .abort s) ∧
    (w.extractLsb' 0 8 = 0x02#8 → s.params.hasAbort = false → exec (.wr .cmd w) s = .next s) ∧
    (w.extractLsb' 0 8 ≠ 0x01#8 → w.extractLsb' 0 8 ≠ 0x02#8 → exec (.wr .cmd w) s = .next s) ∧
    ∀ code : BitVec 8, exec (.cmdReserved code) s = .next s

/-- R143, WR: a command at index 0, a configuration register stored only while `BUSY` = 0 (the amplitudes' bits 15:0), every
other index ignored. -/
def Obligations.WrStoresConfigurationOnlyWhileIdle : Prop :=
  ∀ (s : State) (w : Word),
    (exec (.wr .cmd w) s =
      if w.extractLsb' 0 8 = 0x01#8 then exec .transmit s
      else if w.extractLsb' 0 8 = 0x02#8 then exec .abort s else .next s) ∧
    (s.busy = false →
      exec (.wr .sampleRate w) s = .next { s with sampleRate := w } ∧
      exec (.wr .freqOn w) s = .next { s with freqOn := w } ∧
      exec (.wr .freqOff w) s = .next { s with freqOff := w } ∧
      exec (.wr .ampOn w) s = .next { s with ampOn := w.extractLsb' 0 16 } ∧
      exec (.wr .ampOff w) s = .next { s with ampOff := w.extractLsb' 0 16 } ∧
      exec (.wr .symDur w) s = .next { s with symDur := w } ∧
      exec (.wr .gap w) s = .next { s with gap := w } ∧
      exec (.wr .msgLen w) s = .next { s with msgLen := w }) ∧
    (s.busy = true →
      ∀ r ∈ [Reg.sampleRate, .freqOn, .freqOff, .ampOn, .ampOff, .symDur, .gap, .msgLen],
        exec (.wr r w) s = .next s) ∧
    exec (.wr .status w) s = .next s ∧ exec (.wr .byteIdx w) s = .next s ∧ exec (.wr .symIdx w) s = .next s ∧
    ∀ lo : BitVec 2, exec (.wr (.reserved lo) w) s = .next s

/-- R144, RD: the value of every index is returned to the host and nothing else changes. -/
def Obligations.RdReturnsTheRegisterAlone : Prop :=
  ∀ s : State,
    exec (.rd .cmd) s = .next { s with rdOut := some 0 } ∧
    exec (.rd .status) s = .next { s with rdOut := some (statusWord s) } ∧
    exec (.rd .sampleRate) s = .next { s with rdOut := some s.sampleRate } ∧
    exec (.rd .freqOn) s = .next { s with rdOut := some s.freqOn } ∧
    exec (.rd .freqOff) s = .next { s with rdOut := some s.freqOff } ∧
    exec (.rd .ampOn) s = .next { s with rdOut := some (0#16 ++ s.ampOn) } ∧
    exec (.rd .ampOff) s = .next { s with rdOut := some (0#16 ++ s.ampOff) } ∧
    exec (.rd .symDur) s = .next { s with rdOut := some s.symDur } ∧
    exec (.rd .gap) s = .next { s with rdOut := some s.gap } ∧
    exec (.rd .msgLen) s = .next { s with rdOut := some s.msgLen } ∧
    exec (.rd .byteIdx) s = .next { s with rdOut := some s.byteIdx } ∧
    exec (.rd .symIdx) s = .next { s with rdOut := some (BitVec.ofNat 32 s.symIdx.val) } ∧
    ∀ lo : BitVec 2, exec (.rd (.reserved lo)) s = .next { s with rdOut := some 0 }

/-- R72, R143: the register rows as writes, each to its own register. -/
def Obligations.RegisterRowWritesStoreTheirRegister : Prop :=
  ∀ (s : State) (w : Word),
    (exec (.regCmd (.wr w)) s =
      if w.extractLsb' 0 8 = 0x01#8 then exec .transmit s
      else if w.extractLsb' 0 8 = 0x02#8 then exec .abort s else .next s) ∧
    (s.busy = false →
      exec (.regSampleRate (.wr w)) s = .next { s with sampleRate := w } ∧
      exec (.regFreqOn (.wr w)) s = .next { s with freqOn := w } ∧
      exec (.regFreqOff (.wr w)) s = .next { s with freqOff := w } ∧
      exec (.regAmpOn (.wr w)) s = .next { s with ampOn := w.extractLsb' 0 16 } ∧
      exec (.regAmpOff (.wr w)) s = .next { s with ampOff := w.extractLsb' 0 16 } ∧
      exec (.regSymDur (.wr w)) s = .next { s with symDur := w } ∧
      exec (.regGap (.wr w)) s = .next { s with gap := w } ∧
      exec (.regMsgLen (.wr w)) s = .next { s with msgLen := w }) ∧
    (s.busy = true →
      ∀ i ∈ [Instr.regSampleRate (.wr w), .regFreqOn (.wr w), .regFreqOff (.wr w), .regAmpOn (.wr w),
        .regAmpOff (.wr w), .regSymDur (.wr w), .regGap (.wr w), .regMsgLen (.wr w)], exec i s = .next s) ∧
    exec (.regStatus (.wr w)) s = .next s ∧ exec (.regByteIdx (.wr w)) s = .next s ∧
    exec (.regSymIdx (.wr w)) s = .next s ∧ ∀ lo : BitVec 2, exec (.regReserved lo (.wr w)) s = .next s

/-- R72, R144: the register rows as reads, each of its own register, with no side effect. -/
def Obligations.RegisterRowReadsReturnTheirRegister : Prop :=
  ∀ s : State,
    exec (.regCmd .rd) s = .next { s with rdOut := some 0 } ∧
    exec (.regStatus .rd) s = .next { s with rdOut := some (statusWord s) } ∧
    exec (.regSampleRate .rd) s = .next { s with rdOut := some s.sampleRate } ∧
    exec (.regFreqOn .rd) s = .next { s with rdOut := some s.freqOn } ∧
    exec (.regFreqOff .rd) s = .next { s with rdOut := some s.freqOff } ∧
    exec (.regAmpOn .rd) s = .next { s with rdOut := some (0#16 ++ s.ampOn) } ∧
    exec (.regAmpOff .rd) s = .next { s with rdOut := some (0#16 ++ s.ampOff) } ∧
    exec (.regSymDur .rd) s = .next { s with rdOut := some s.symDur } ∧
    exec (.regGap .rd) s = .next { s with rdOut := some s.gap } ∧
    exec (.regMsgLen .rd) s = .next { s with rdOut := some s.msgLen } ∧
    exec (.regByteIdx .rd) s = .next { s with rdOut := some s.byteIdx } ∧
    exec (.regSymIdx .rd) s = .next { s with rdOut := some (BitVec.ofNat 32 s.symIdx.val) } ∧
    ∀ lo : BitVec 2, exec (.regReserved lo .rd) s = .next { s with rdOut := some 0 }

/-! ## STATUS (10_state.md R23, R26, R27) -/

/-- R27: the layout of `STATUS`; a read returns it, a write to it changes nothing. -/
def Obligations.StatusWordLayout : Prop :=
  ∀ s : State,
    (statusWord s).getLsbD 0 = s.busy ∧
    (statusWord s).getLsbD 1 = s.done ∧
    (statusWord s).extractLsb' 2 2 = s.err.code ∧
    (statusWord s).extractLsb' 4 4 = s.txState.code ∧
    (statusWord s).getLsbD 8 = s.tone ∧
    (statusWord s).getLsbD 9 = s.abortPending ∧
    (statusWord s).extractLsb' 10 22 = 0#22 ∧
    readReg .status s = statusWord s ∧
    ∀ w, exec (.wr .status w) s = .next s

/-- R23, the table: the state of the per-byte machine and its code, by `SYM_IDX` while a symbol is emitted. -/
def Obligations.StateFollowsTheSymbolIndex : Prop :=
  ∀ s : State,
    (s.phase = .idle → s.txState = .idle ∧ s.txState.code = 0#4) ∧
    (s.phase = .gapWait → s.txState = .gapWait ∧ s.txState.code = 4#4) ∧
    (s.phase = .emitting → s.symIdx.val = 0 → s.txState = .emittingStart ∧ s.txState.code = 1#4) ∧
    (s.phase = .emitting → ∀ k : Fin 8, s.symIdx.val = k.val + 1 →
      s.txState = .emittingBit k ∧ s.txState.code = 2#4) ∧
    (s.phase = .emitting → ∀ j : Fin 2, s.symIdx.val = j.val + 9 →
      s.txState = .emittingStop j ∧ s.txState.code = 3#4)

/-! ## The framer (41_framer.md, 30_encoding.md R61 to R67) -/

/-- R100: FRAME gives Start, the eight data bits most significant first, and two Stops; nothing else changes. -/
def Obligations.FrameGivesElevenSymbols : Prop :=
  ∀ (s : State) (b : Byte),
    exec (.frame b) s = .next
      { s with
        unitOut := some (.symbols
          [.start, .dataBit (b.getLsbD 7), .dataBit (b.getLsbD 6), .dataBit (b.getLsbD 5), .dataBit (b.getLsbD 4),
           .dataBit (b.getLsbD 3), .dataBit (b.getLsbD 2), .dataBit (b.getLsbD 1), .dataBit (b.getLsbD 0),
           .stop, .stop]) }

/-- R61, R67: the frame word is `1024 + 4 * b`, its bit `10 - s` is the level of symbol `s`, the data symbol at `s` carries
bit `8 - s`, the eight data levels read back give the byte, and different bytes have different words. -/
def Obligations.FrameWordIsTheLineCode : Prop :=
  ∀ b : Byte,
    (frameWord b).toNat = 1024 + 4 * b.toNat ∧
    (∀ i : Fin 11, (frameWord b).getLsbD (10 - i.val) = level b i) ∧
    (frame b).map Symbol.level = (List.finRange 11).map (level b) ∧
    (∀ i : Fin 11, 1 ≤ i.val → i.val ≤ 8 → level b i = b.getLsbD (8 - i.val)) ∧
    level b 0 = true ∧ level b 9 = false ∧ level b 10 = false ∧
    b.toNat = ((List.finRange 8).map fun k => (level b ⟨k.val + 1, by omega⟩).toNat * 2 ^ (7 - k.val)).sum ∧
    ∀ b' : Byte, frameWord b' = frameWord b → b' = b

/-- R101, R117: START opens the symbol at index 0 with the tone-on parameters, whatever the byte. -/
def Obligations.StartOpensAtToneOn : Prop :=
  ∀ s : State,
    (LegalArguments s → exec .start s = .next (openedAt 0 true s)) ∧
    (¬ LegalArguments s → exec .start s = .next (invalidAt 0 true s))

/-- R102, R117: BIT k opens the symbol at index k + 1 at the level of bit 7 - k of the byte. -/
def Obligations.BitOpensAtItsBitLevel : Prop :=
  ∀ s : State,
    (LegalArguments s →
      exec .bit0 s = .next (openedAt 1 (s.shreg.getLsbD 7) s) ∧
      exec .bit1 s = .next (openedAt 2 (s.shreg.getLsbD 6) s) ∧
      exec .bit2 s = .next (openedAt 3 (s.shreg.getLsbD 5) s) ∧
      exec .bit3 s = .next (openedAt 4 (s.shreg.getLsbD 4) s) ∧
      exec .bit4 s = .next (openedAt 5 (s.shreg.getLsbD 3) s) ∧
      exec .bit5 s = .next (openedAt 6 (s.shreg.getLsbD 2) s) ∧
      exec .bit6 s = .next (openedAt 7 (s.shreg.getLsbD 1) s) ∧
      exec .bit7 s = .next (openedAt 8 (s.shreg.getLsbD 0) s)) ∧
    (¬ LegalArguments s →
      exec .bit0 s = .next (invalidAt 1 (s.shreg.getLsbD 7) s) ∧
      exec .bit1 s = .next (invalidAt 2 (s.shreg.getLsbD 6) s) ∧
      exec .bit2 s = .next (invalidAt 3 (s.shreg.getLsbD 5) s) ∧
      exec .bit3 s = .next (invalidAt 4 (s.shreg.getLsbD 4) s) ∧
      exec .bit4 s = .next (invalidAt 5 (s.shreg.getLsbD 3) s) ∧
      exec .bit5 s = .next (invalidAt 6 (s.shreg.getLsbD 2) s) ∧
      exec .bit6 s = .next (invalidAt 7 (s.shreg.getLsbD 1) s) ∧
      exec .bit7 s = .next (invalidAt 8 (s.shreg.getLsbD 0) s))

/-- R103, R117: STOP 0 and STOP 1 open the symbols at indices 9 and 10 with the tone-off parameters. -/
def Obligations.StopOpensAtToneOff : Prop :=
  ∀ s : State,
    (LegalArguments s →
      exec .stop0 s = .next (openedAt 9 false s) ∧ exec .stop1 s = .next (openedAt 10 false s)) ∧
    (¬ LegalArguments s →
      exec .stop0 s = .next (invalidAt 9 false s) ∧ exec .stop1 s = .next (invalidAt 10 false s))

/-- R62, R71 (c), U18: a slot value 11 to 15 has no meaning; issued, it leaves the block stuck. -/
def Obligations.UnusedSlotIsStuck : Prop :=
  ∀ (s : State) (v : BitVec 4), 11 ≤ v.toNat →
    decode { fmt := .slot, bits := v.setWidth 80 } = .ok (.slotUnused v) ∧
    exec (.slotUnused v) s = .fault (.slotNeverProduced v)

/-! ## The mapper and the synthesizer (42_transmitter.md R110, 40_synthesizer.md) -/

/-- R110: level 1 maps to the tone-on registers, level 0 to the tone-off registers, both with `SYM_DUR`. -/
def Obligations.MapSelectsTheLevelParameters : Prop :=
  ∀ s : State,
    exec (.map true) s = .next { s with unitOut := some (.tone { f := s.freqOn, a := s.ampOn, d := s.symDur }) } ∧
    exec (.map false) s = .next { s with unitOut := some (.tone { f := s.freqOff, a := s.ampOff, d := s.symDur }) }

/-- R80 to R82: SYNTH raises InvalidArgument when `Fs <= 0` or `D < 0`; else it writes `N_SYM` and `SAMPLE_IDX` and returns
the sequence of `N = (D * Fs) div 1000000` elements of the tone. -/
def Obligations.SynthChecksThenCounts : Prop :=
  ∀ (s : State) (f : Word) (a : Sample) (d : Word),
    (0 < s.sampleRate.toInt → 0 ≤ d.toInt →
      exec (.synth f a d) s = .next
        { s with
          nSym := BitVec.ofNat 64 ((d.toInt * s.sampleRate.toInt).toNat / 1000000)
          sampleIdx := 0
          unitOut := some (.samples
            { f := f, a := a, fs := s.sampleRate, count := (d.toInt * s.sampleRate.toInt).toNat / 1000000 }) }) ∧
    (s.sampleRate.toInt ≤ 0 ∨ d.toInt < 0 → exec (.synth f a d) s = .next (endedWith .invalidArgument s))

/-- R33, R82: with legal arguments the sample count is the exact integer quotient and is below 2^43. -/
def Obligations.SampleCountIsTheExactQuotient : Prop :=
  ∀ d fs : Word, 0 < fs.toInt → 0 ≤ d.toInt →
    (sampleCount d fs : Int) * 1000000 ≤ d.toInt * fs.toInt ∧
    d.toInt * fs.toInt < ((sampleCount d fs : Int) + 1) * 1000000 ∧
    sampleCount d fs < 2 ^ 43

/-- R87, R88 (b): zero frequency, zero amplitude and index 0 give exactly 0, under every rounding and tolerance, and a
silent window still has its full length. -/
def Obligations.SilenceIsExactlyZero : Prop :=
  ∀ (c : Config.Params) (f : Word) (a : Sample) (fs : Word), 0 < fs.toInt →
    (f = 0 ∨ a = 0 → ∀ n, sampleFn c f a n fs = 0) ∧
    sampleFn c f a 0 fs = 0 ∧
    (f = 0 ∨ a = 0 → ∀ k, SampleSeq.toList c { f := f, a := a, fs := fs, count := k } = List.replicate k 0)

/-- R89, R88 (c): every sample is within the magnitude of the amplitude, whatever the rounding and tolerance. -/
def Obligations.SampleWithinAmplitude : Prop :=
  ∀ (c : Config.Params) (f : Word) (a : Sample) (n : Count) (fs : Word), 0 < fs.toInt →
    |(sampleFn c f a n fs).toInt| ≤ |a.toInt|

/-- R92: a frequency and its complement to the sample rate give negated windows, and the sample rate itself gives silence. -/
def Obligations.AliasNegatesTheWindow : Prop :=
  ∀ (c : Config.Params) (f f' : Word) (a : Sample) (n : Count) (fs : Word), 0 < fs.toInt → c.sampleTol = 0 →
    ((f.toNat + f'.toNat : Int) = 1000 * fs.toInt → a.toInt ≠ -32768 →
      (sampleFn c f' a n fs).toInt = -(sampleFn c f a n fs).toInt) ∧
    ((f.toNat : Int) = 1000 * fs.toInt → sampleFn c f a n fs = 0)

/-- R84 to R86, R88 (d): for every rounding, tone, index and positive rate the computed sample is the clamped rounding of
the exact real `A * sin(2 * pi * F * n / (1000 * Fs))`, and within `SAMPLE_TOL` of it with a tolerance. -/
def Obligations.SampleIsTheRoundedExactSine : Prop :=
  ∀ (c : Config.Params) (f : Word) (a : Sample) (n : Count) (fs : Word), 0 < fs.toInt →
    (c.sampleTol = 0 → (sampleFn c f a n fs).toInt = exactSample c.sampleRound f a n fs) ∧
    |(sampleFn c f a n fs).toInt - exactSample c.sampleRound f a n fs| ≤ c.sampleTol

/-- R84, R85, R86: the computed sample is within `SAMPLE_TOL` and one of the exact real value under every rounding, and
within `SAMPLE_TOL` and a half under the two nearest roundings where the clamp cuts nothing off. -/
def Obligations.SampleWithinOneOfTheExactSine : Prop :=
  ∀ (c : Config.Params) (f : Word) (a : Sample) (n : Count) (fs : Word), 0 < fs.toInt →
    |((sampleFn c f a n fs).toInt : ℝ) -
      a.toInt * Real.sin (2 * Real.pi * ((f.toNat : ℝ) * n.toNat) / (1000 * (fs.toInt : ℝ)))| ≤ c.sampleTol + 1 ∧
    (c.sampleRound ≠ .towardZero → a.toInt ≠ -32768 →
      |((sampleFn c f a n fs).toInt : ℝ) -
        a.toInt * Real.sin (2 * Real.pi * ((f.toNat : ℝ) * n.toNat) / (1000 * (fs.toInt : ℝ)))| ≤
        c.sampleTol + 1 / 2)

/-! ## The byte image and the message (20_memory.md) -/

/-- R41: a sample's byte image is bits 7:0 first, then bits 15:8, and the image of the stream is the images in order. -/
def Obligations.PcmBytesAreLittleEndian : Prop :=
  (∀ v : Sample, pcmBytes v = [BitVec.ofNat 8 (v.toNat % 256), BitVec.ofNat 8 (v.toNat / 256)] ∧
    v.toNat = ((v.toInt % 65536).toNat)) ∧
  ∀ (s : State) (k : Nat) (v : Sample), s.sink[k]? = some v →
    s.sinkBytes.length = 2 * s.sink.length ∧
    s.sinkBytes[2 * k]? = some (v.extractLsb' 0 8) ∧ s.sinkBytes[2 * k + 1]? = some (v.extractLsb' 8 8)

/-- The message the host answers reads from (log 22): setting a byte is read back, leaves every other index alone, and keeps
the canonical form. -/
def Obligations.MessageByteReadsBack : Prop :=
  ∀ (s : State) (rest : List PortEvent) (i : Nat) (b : Byte), s.port = .msgByte i b :: rest →
    ∃ m, step s = .next { s with port := rest, msg := m } ∧ m.read i = some b ∧
      (∀ j, j ≠ i → m.read j = s.msg.read j) ∧ (Memory.wf s.msg = true → Memory.wf m = true)

/-! ## The steps of the transmitter (42_transmitter.md) -/

/-- R116: with no ABORT pending and the host's answer there, FETCH reads byte `BYTE_IDX` and opens the Start symbol; a byte
the message does not list is some byte (log 22). -/
def Obligations.FetchReadsTheByteAndOpensStart : Prop :=
  ∀ (s : State) (rest : List Bool),
    s.busy = true → s.phase = .idle → s.byteIdx.toNat < s.msgLen.toNat → s.abortPending = false →
    s.msgIn = true :: rest → LegalArguments s →
    (∀ b, s.msg.read s.byteIdx.toNat = some b →
      exec .fetch s = .next (openedAt 0 true (afterRead b { s with msgIn := rest }))) ∧
    (s.msg.read s.byteIdx.toNat = none →
      ∃ b, exec .fetch s = .next
        (openedAt 0 true (afterRead b { s with msgIn := rest, draws := s.draws + 1 })))

/-- R115, R51, R201, R6: while the host has not answered, FETCH changes nothing and no host operation falls before it
completes (log 6). Where the coming answer is not listed, whether it is there is a free value (log 5): FETCH waits, or it
reads the byte the message lists at `BYTE_IDX`, some byte where the message lists none (log 22), and opens the Start
symbol or raises InvalidArgument. -/
def Obligations.FetchWaitsForTheByte : Prop :=
  ∀ s : State,
    s.busy = true → s.phase = .idle → s.byteIdx.toNat < s.msgLen.toNat → s.abortPending = false →
    (∀ rest, s.msgIn = false :: rest →
      ∃ p, KeepsTurn s.port p ∧ exec .fetch s = .next { s with msgIn := rest, port := p }) ∧
    (s.msgIn = [] →
      (∃ p, KeepsTurn s.port p ∧ exec .fetch s = .next { s with draws := s.draws + 1, port := p }) ∨
      ∃ b n,
        ((s.msg.read s.byteIdx.toNat = some b ∧ n = s.draws + 1) ∨
          (s.msg.read s.byteIdx.toNat = none ∧ n = s.draws + 2)) ∧
        (LegalArguments s → exec .fetch s = .next (openedAt 0 true (afterRead b { s with draws := n }))) ∧
        (¬ LegalArguments s → exec .fetch s = .next (invalidAt 0 true (afterRead b { s with draws := n }))))

/-- R116, R169: a pending ABORT is taken before the byte is read and before the arguments are checked. -/
def Obligations.FetchTakesAPendingAbort : Prop :=
  ∀ s : State,
    s.busy = true → s.phase = .idle → s.byteIdx.toNat < s.msgLen.toNat → s.abortPending = true →
    exec .fetch s = .next (endedWith .interrupted s)

/-- R116, R162: with arguments that break the contract FETCH reads the byte, then raises InvalidArgument; a byte the message
does not list is some byte (log 22). -/
def Obligations.FetchRaisesInvalidArgument : Prop :=
  ∀ (s : State) (rest : List Bool),
    s.busy = true → s.phase = .idle → s.byteIdx.toNat < s.msgLen.toNat → s.abortPending = false →
    s.msgIn = true :: rest → ¬ LegalArguments s →
    (∀ b, s.msg.read s.byteIdx.toNat = some b →
      exec .fetch s = .next (invalidAt 0 true (afterRead b { s with msgIn := rest }))) ∧
    (s.msg.read s.byteIdx.toNat = none →
      ∃ b, exec .fetch s = .next
        (invalidAt 0 true (afterRead b { s with msgIn := rest, draws := s.draws + 1 })))

/-- R117: OPEN at `SYM_IDX` opens the symbol of that index at its level. -/
def Obligations.OpenFollowsTheSymbolIndex : Prop :=
  ∀ (s : State) (lv : Bool),
    (s.symIdx.val = 0 → lv = true) →
    (1 ≤ s.symIdx.val → s.symIdx.val ≤ 8 → lv = s.shreg.getLsbD (8 - s.symIdx.val)) →
    (9 ≤ s.symIdx.val → lv = false) →
    (LegalArguments s → exec .openSym s = .next (openedAt s.symIdx lv s)) ∧
    (¬ LegalArguments s → exec .openSym s = .next (invalidAt s.symIdx lv s))

/-- R118: EMIT presents the sample of the latched tone at `SAMPLE_IDX`; accept counts it, stall changes nothing, fail raises
SinkFailure; a pending ABORT is not looked at. An answer that is not listed is a free value (log 5). -/
def Obligations.EmitFollowsTheSinksAnswer : Prop :=
  ∀ s : State,
    s.busy = true → s.phase = .emitting → s.sampleIdx.toNat < s.nSym.toNat →
    (∀ a rest, s.sinkIn = a :: rest →
      exec .emit s = .next (afterAnswer a (sampleFn s.params s.treqF s.treqA s.sampleIdx s.sampleRate)
        { s with sinkIn := rest })) ∧
    (s.sinkIn = [] → ∃ a,
      exec .emit s = .next (afterAnswer a (sampleFn s.params s.treqF s.treqA s.sampleIdx s.sampleRate)
        { s with draws := s.draws + 1 }))

/-- R119: NEXTSYM with no ABORT pending opens the next symbol at its level. -/
def Obligations.NextsymOpensTheNextSymbol : Prop :=
  ∀ (s : State) (j : Fin 11) (lv : Bool),
    s.busy = true → s.phase = .emitting → s.sampleIdx = s.nSym → j.val = s.symIdx.val + 1 →
    s.abortPending = false → LegalArguments s →
    (j.val ≤ 8 → lv = s.shreg.getLsbD (8 - j.val)) → (9 ≤ j.val → lv = false) →
    exec .nextsym s = .next (openedAt j lv s)

/-- R119, R164: NEXTSYM with an ABORT pending raises Interrupted at the symbol not begun. -/
def Obligations.NextsymTakesAPendingAbort : Prop :=
  ∀ (s : State) (j : Fin 11),
    s.busy = true → s.phase = .emitting → s.sampleIdx = s.nSym → j.val = s.symIdx.val + 1 → s.abortPending = true →
    exec .nextsym s = .next (endedWith .interrupted { s with symIdx := j })

/-- R120: ENDFRAME goes to the next byte, and with `GAP` > 0 requests one delay and waits; a pending ABORT is not looked
at. -/
def Obligations.EndframeAdvancesTheByte : Prop :=
  ∀ s : State,
    s.busy = true → s.phase = .emitting → s.sampleIdx = s.nSym → s.symIdx.val = 10 →
    (s.gap = 0 → exec .endframe s = .next
      { s with byteIdx := s.byteIdx + 1, symIdx := 0, tone := false, phase := .idle }) ∧
    (s.gap ≠ 0 → exec .endframe s = .next
      { s with
        byteIdx := s.byteIdx + 1, symIdx := 0, tone := false, phase := .gapWait, delays := s.delays ++ [s.gap] })

/-- R121: GAPDONE leaves GapWait when DelayDone has come and changes nothing before; whether a completion that is not listed
has come is a free value (log 5). -/
def Obligations.GapdoneWaitsForDelayDone : Prop :=
  ∀ s : State,
    s.busy = true → s.phase = .gapWait →
    (∀ rest, s.delayIn = true :: rest → exec .gapdone s = .next { s with delayIn := rest, phase := .idle }) ∧
    (∀ rest, s.delayIn = false :: rest → exec .gapdone s = .next { s with delayIn := rest }) ∧
    (s.delayIn = [] →
      exec .gapdone s = .next { s with draws := s.draws + 1, phase := .idle } ∨
      exec .gapdone s = .next { s with draws := s.draws + 1 })

/-- R122: FINISH ends the transmission Ok and drops a pending ABORT. -/
def Obligations.FinishEndsOk : Prop :=
  ∀ s : State,
    s.busy = true → s.phase = .idle → s.byteIdx = s.msgLen →
    exec .finish s = .next { s with busy := false, done := true, err := .ok, abortPending := false }

/-- The step rows issued where R115 does not enable them stop (log 11, the model's choice). -/
def Obligations.StepRowsStopWhereNotEnabled : Prop :=
  ∀ (s : State), ∀ i ∈ [Instr.fetch, .emit, .nextsym, .endframe, .gapdone, .finish],
    selectStep s ≠ some i → exec i s = .fault .stepNotEnabled

/-! ## The step (42_transmitter.md R115, 43_host_commands.md R142) -/

/-- A word on the port that decodes is run on the state without it; a word that does not decode is refused (log 1); a word of
the table placed for the next step (log 2, log 3) is the one decoded. That the order of events is a list is log 4. -/
def Obligations.StepRunsThePresentedWord : Prop :=
  (∀ (s : State) (w : OpWord) (rest : List PortEvent) (i : Instr),
    s.port = .op w :: rest → decode w = .ok i → step s = exec i { s with port := rest }) ∧
  (∀ (s : State) (w : OpWord) (rest : List PortEvent) (r : Reject),
    s.port = .op w :: rest → decode w = .error r → step s = .refused (.undecodable r)) ∧
  ∀ (s : State) (nbits w : Nat) (i : Instr),
    decodeTableWord nbits w = some i → step (s.withFetchWord nbits w) = exec i s

/-- With nothing on the port the block takes the step R115 enables; while `BUSY` = 0 it does nothing. -/
def Obligations.StepRunsTheEnabledStep : Prop :=
  (∀ (s : State) (i : Instr), s.port = [] → selectStep s = some i → step s = exec i s) ∧
  (∀ (s : State) (rest : List PortEvent) (i : Instr), s.port = .idle :: rest → selectStep s = some i →
    step s = exec i { s with port := rest }) ∧
  (∀ s : State, s.port = [] → s.busy = false → step s = .next s) ∧
  ∀ (s : State) (rest : List PortEvent), s.port = .idle :: rest → s.busy = false →
    step s = .next { s with port := rest }

/-- R115: the table of enabled steps; in a state with `BUSY` = 1 (and the invariants) exactly one is selected, in a state with
`BUSY` = 0 none. The model selects GAPDONE in GapWait before the delay has completed too, and waits in it (log 21); the
other five lines are those of the table. -/
def Obligations.ExactlyOneStepIsEnabled : Prop :=
  ∀ s : State, Inv s →
    (s.busy = true → ∃ i, selectStep s = some i) ∧
    (s.busy = false → selectStep s = none) ∧
    (selectStep s = some .fetch ↔ s.busy = true ∧ s.phase = .idle ∧ s.byteIdx.toNat < s.msgLen.toNat) ∧
    (selectStep s = some .finish ↔ s.busy = true ∧ s.phase = .idle ∧ s.byteIdx = s.msgLen) ∧
    (selectStep s = some .emit ↔ s.busy = true ∧ s.phase = .emitting ∧ s.sampleIdx.toNat < s.nSym.toNat) ∧
    (selectStep s = some .nextsym ↔
      s.busy = true ∧ s.phase = .emitting ∧ s.sampleIdx = s.nSym ∧ s.symIdx.val < 10) ∧
    (selectStep s = some .endframe ↔
      s.busy = true ∧ s.phase = .emitting ∧ s.sampleIdx = s.nSym ∧ s.symIdx.val = 10) ∧
    (selectStep s = some .gapdone ↔ s.busy = true ∧ s.phase = .gapWait)

/-! ## Encoding (30_encoding.md) -/

/-- Decoding the word of a well-formed operation gives the operation, with every operand at every value; the operations with
no word are those the table gives none of their own (log 2). -/
def Obligations.DecodeInvertsEncode : Prop :=
  ∀ i : Instr, i.WellFormed →
    (∀ w, encode i = some w → decode w = .ok i) ∧
    (encode i = none ↔
      (∃ lv, i = .map lv) ∨
      i ∈ [Instr.emit, .fetch, .openSym, .nextsym, .endframe, .gapdone, .finish])

/-- Every operation the decoder gives is well formed and has a word that decodes to it. -/
def Obligations.DecodedIsWellFormed : Prop :=
  ∀ (w : OpWord) (i : Instr), decode w = .ok i →
    i.WellFormed ∧ ∃ w', encode i = some w' ∧ w'.fmt = w.fmt ∧ decode w' = .ok i

/-- Words written out from the encodings of the spec: CMD codes with ignored bits (R66, R70, vector V97), a WR and an RD of
program P1, a register row (R72), the frame word of 0x41 (R61, V54), the slots of R62, and the tone request of V60 (R64). -/
def Obligations.SpecWordsDecode : Prop :=
  decode { fmt := .cmd, bits := 0x01#80 } = .ok .transmit ∧
  decode { fmt := .cmd, bits := 0xABCD0101#80 } = .ok .transmit ∧
  decode { fmt := .cmd, bits := 0x02#80 } = .ok .abort ∧
  decode { fmt := .cmd, bits := 0xFF#80 } = .ok (.cmdReserved 0xFF#8) ∧
  decode { fmt := .write, bits := 0x00001F4002#80 } = .ok (.wr .sampleRate 8000#32) ∧
  decode { fmt := .read, bits := 0xA#80 } = .ok (.rd .byteIdx) ∧
  decode { fmt := .regIdx, bits := 0x100001F4002#80 } = .ok (.regSampleRate (.wr 8000#32)) ∧
  decode { fmt := .regIdx, bits := 0xD#80 } = .ok (.regReserved 1#2 .rd) ∧
  decode { fmt := .frame11, bits := 0b10100000100#80 } = .ok (.frame 0x41#8) ∧
  decode { fmt := .slot, bits := 0x0#80 } = .ok .start ∧
  decode { fmt := .slot, bits := 0x8#80 } = .ok .bit7 ∧
  decode { fmt := .slot, bits := 0xA#80 } = .ok .stop1 ∧
  decode { fmt := .toneReq, bits := 0x000F424000FF000186A0#80 } = .ok (.synth 1000000#32 255#16 100000#32)

/-! ## Invariants and whole-machine rules -/

/-- The state after reset meets the invariants of R35 and of the stream. -/
def Obligations.ResetMeetsTheInvariants : Prop :=
  Inv State.reset ∧ StreamInv State.reset ∧ HostOnly State.reset

/-- R35: every step keeps the invariants, whatever the environment does. -/
def Obligations.StepKeepsTheInvariants : Prop :=
  ∀ s t : State, HostOnly s → Inv s → step s = .next t → Inv t ∧ HostOnly t

/-- R46, R51, R123: every step keeps what the sink has received a prefix of the stream of the bytes read, and the bytes read
once each in ascending order. -/
def Obligations.StepKeepsTheStream : Prop :=
  ∀ s t : State, HostOnly s → Inv s → StreamInv s → step s = .next t → StreamInv t

/-- R123, R122: a transmission that FINISH ends has written exactly the stream of its `MSG_LEN` bytes, `11 * N * L` samples. -/
def Obligations.FinishedStreamIsTheWholeMessage : Prop :=
  ∀ s t : State, Inv s → StreamInv s → exec .finish s = .next t →
    (runBytes t).length = t.msgLen.toNat ∧ t.stream = messageSamples t (runBytes t) ∧
    t.stream.length = 11 * windowLength t * t.msgLen.toNat

/-- R171: whichever step raises an error, the entry is the one sequence: the flags, and nothing received, requested or
counted after it; the position kept, but that NEXTSYM has named the symbol not begun. -/
def Obligations.ErrorEntryKeepsThePosition : Prop :=
  ∀ s t : State, HostOnly s → Inv s → s.busy = true → step s = .next t → t.err ≠ .ok →
    t.busy = false ∧ t.done = true ∧ t.txState = .idle ∧ t.tone = false ∧ t.abortPending = false ∧
    t.byteIdx = s.byteIdx ∧
    (t.symIdx = s.symIdx ∨ (t.err = .interrupted ∧ t.symIdx.val = s.symIdx.val + 1)) ∧
    t.sampleIdx = s.sampleIdx ∧ t.nSym = s.nSym ∧ t.cursor = s.cursor ∧
    t.sink = s.sink ∧ t.delays = s.delays

/-- R161: the position an error records and the samples the sink has received by then. -/
def Obligations.ErrorPositionsCountTheSamples : Prop :=
  ∀ s t : State, HostOnly s → Inv s → s.busy = true → step s = .next t →
    (t.err = .invalidArgument → t.byteIdx = 0 ∧ t.symIdx = 0 ∧ t.cursor = 0) ∧
    (t.err = .sinkFailure →
      t.cursor = (11 * t.byteIdx.toNat + t.symIdx.val) * windowLength t + t.sampleIdx.toNat) ∧
    (t.err = .interrupted → t.cursor = (11 * t.byteIdx.toNat + t.symIdx.val) * windowLength t)

/-- R19: the configuration is constant from the acceptance of TRANSMIT to the end of the transmission, the step that ends it
included. -/
def Obligations.ConfigurationConstantWhileBusy : Prop :=
  ∀ s t : State, HostOnly s → s.busy = true → step s = .next t → t.busy = true ∨ t.done = true →
    t.sampleRate = s.sampleRate ∧ t.freqOn = s.freqOn ∧ t.freqOff = s.freqOff ∧ t.ampOn = s.ampOn ∧
    t.ampOff = s.ampOff ∧ t.symDur = s.symDur ∧ t.gap = s.gap ∧ t.msgLen = s.msgLen

/-- R20: within a transmission the position never goes backwards; `SAMPLE_IDX` is compared while a symbol is emitted, being
stale outside (log 20). -/
def Obligations.PositionNeverGoesBack : Prop :=
  ∀ s t : State, HostOnly s → Inv s → s.busy = true → step s = .next t → t.busy = true →
    s.byteIdx.toNat < t.byteIdx.toNat ∨
    (s.byteIdx = t.byteIdx ∧ s.symIdx.val < t.symIdx.val) ∨
    (s.byteIdx = t.byteIdx ∧ s.symIdx = t.symIdx ∧
      (s.phase = .emitting → s.sampleIdx.toNat ≤ t.sampleIdx.toNat))

/-- R4: no step changes a parameter of the instance. -/
def Obligations.ParametersNeverChange : Prop :=
  ∀ s t : State, step s = .next t → t.params = s.params

/-- R112: a frame has `11 * N` samples and a message `11 * N * L`, and the stream of two messages is the two streams one after
the other (R123, the concatenation law). -/
def Obligations.StreamLengthAndConcatenation : Prop :=
  ∀ (s : State) (l m : List Byte),
    (∀ b, (frameSamples s b).length = 11 * windowLength s) ∧
    (messageSamples s l).length = 11 * windowLength s * l.length ∧
    messageSamples s (l ++ m) = messageSamples s l ++ messageSamples s m

/-- R122, R193, program P8: with `MSG_LEN` = 0 the transmission is one FINISH step and ends Ok, whatever the rest of the
configuration; `STATUS` is 0x001, then 0x002. -/
def Obligations.EmptyMessageEndsOk : Prop :=
  ∀ s : State, s.busy = false → s.port = [] → s.msgLen = 0 →
    ∃ t u, exec .transmit s = .next t ∧ statusWord t = 0x001#32 ∧ step t = .next u ∧ statusWord u = 0x002#32 ∧
      u.sink = s.sink ∧ u.reads = s.reads ∧ u.delays = s.delays

/-- R123, R126: a transmission whose sink accepts, whose host answers and whose delays complete ends Ok after exactly
`L * (11 * N + 12)` steps and one (`L` more with a gap), having written the whole stream and requested `L` delays or none.
The answers that come are the lists of log 5. -/
def Obligations.TransmissionWritesTheWholeStream : Prop :=
  ∀ (s : State) (bytes : List Byte) (restS : List SinkAnswer) (restM restD : List Bool),
    s.busy = false → s.port = [] → LegalArguments s → s.msgLen.toNat = bytes.length →
    (∀ i b, bytes[i]? = some b → s.msg.read i = some b) →
    s.sinkIn = List.replicate (11 * windowLength s * bytes.length) .accept ++ restS →
    s.msgIn = List.replicate bytes.length true ++ restM →
    s.delayIn = List.replicate (if s.gap = 0 then 0 else bytes.length) true ++ restD →
    ∃ t u : State, exec .transmit s = .next t ∧
      Host.Core.run core (bytes.length * (11 * windowLength s + 12 + (if s.gap = 0 then 0 else 1)) + 1) t = .next u ∧
      u.busy = false ∧ u.done = true ∧ u.err = .ok ∧ u.byteIdx = s.msgLen ∧ u.symIdx = 0 ∧
      u.stream = messageSamples s bytes ∧ u.sink = s.sink ++ messageSamples s bytes ∧
      u.delays = s.delays ++ List.replicate (if s.gap = 0 then 0 else bytes.length) s.gap

/-- R6, R142, R201: a FETCH that has not completed leaves a state whose next step is the same FETCH, or the reset input; no
host operation comes between, so none falls inside it (log 6). -/
def Obligations.FetchIsNotInterleaved : Prop :=
  ∀ s t : State, exec .fetch s = .next t → t.busy = true → t.phase = .idle →
    selectStep t = some .fetch ∧ t.abortPending = false ∧ t.msg = s.msg ∧ t.reads = s.reads ∧
    ((t.port = [] ∧ step t = exec .fetch t) ∨
      (∃ rest, t.port = .idle :: rest ∧ step t = exec .fetch { t with port := rest }) ∨
      (∃ rest, t.port = .resetLine :: rest ∧ step t = .next (resetBlock { t with port := rest })))
end

