-- ==== Sys2Proof/Laws/Encoding.lean ====
section
/-!
SUPPORT. The fields of a word put together from parts: what lies above a part, the part at the bottom, the part at the
top; and that register indices, accesses and register names are read back.
-/

namespace Sys2Proof.Laws

/-- The bits above the low part are the bits of the high part. -/
theorem extract_above {n m : Nat} (s l : Nat) (x : BitVec n) (y : BitVec m) :
    (x ++ y).extractLsb' (s + m) l = x.extractLsb' s l := by
  ext i hi
  simp only [BitVec.getElem_extractLsb', BitVec.getLsbD_append]
  rw [if_neg (by omega)]
  congr 1
  omega

/-- The low bits are the low part. -/
theorem extract_low {n m : Nat} (x : BitVec n) (y : BitVec m) : (x ++ y).extractLsb' 0 m = y := by
  ext i hi
  simp [BitVec.getLsbD_append, hi]

/-- All the bits above the low part are the high part. -/
theorem extract_high {n m : Nat} (x : BitVec n) (y : BitVec m) : (x ++ y).extractLsb' m n = x := by
  have h := extract_above 0 n x y
  rw [Nat.zero_add] at h
  rw [h]
  ext i hi
  simp

/-- The bits of a part between two others are that part. -/
theorem extract_middle {n m k : Nat} (x : BitVec n) (y : BitVec m) (z : BitVec k) :
    (x ++ y ++ z).extractLsb' k m = y := by
  have h := extract_above 0 m (x ++ y) z
  rw [Nat.zero_add] at h
  rw [h, extract_low]

@[simp] theorem ofIndex_index (r : Reg) : Reg.ofIndex r.index = r := by
  cases r with
  | reserved lo => revert lo; decide
  | _ => rfl

@[simp] theorem index_ofIndex (v : BitVec 4) : (Reg.ofIndex v).index = v := by revert v; decide

@[simp] theorem decodeAccess_encodeAccess (a : Access) : decodeAccess (encodeAccess a) = some a := by
  cases a with
  | rd => rfl
  | wr w =>
    have h1 : (encodeAccess (.wr w)).getLsbD 32 = true := by
      show (1#1 ++ w).getLsbD 32 = true
      rw [BitVec.getLsbD_append]
      simp
    have h2 : (encodeAccess (.wr w)).extractLsb' 0 32 = w := extract_low 1#1 w
    rw [decodeAccess, if_pos h1, h2]

/-- A command word decodes to the command of its code. -/
theorem decode_cmdWord (code : BitVec 8) : decode (cmdWord code) = .ok (decodeCommand code) := by
  have h1 : (cmdWord code).bits.extractLsb' 32 48 = 0#48 := (extract_above 24 48 0#72 code).trans (by decide)
  have h2 : (cmdWord code).bits.extractLsb' 0 8 = code := extract_low 0#72 code
  show (if _ then _ else _) = _
  rw [if_pos h1, h2]

/-- The word of a register row decodes to that row. -/
theorem decode_regWord (r : Reg) (a : Access) : decode (regWord r a) = .ok (.ofRegAccess r a) := by
  have h1 : (regWord r a).bits.extractLsb' 4 4 = 0#4 := extract_middle (0#39 ++ encodeAccess a) 0#4 r.index
  have h2 : (regWord r a).bits.extractLsb' 41 39 = 0#39 :=
    (extract_above 37 39 (0#39 ++ encodeAccess a ++ 0#4) r.index).trans
      ((extract_above 33 39 (0#39 ++ encodeAccess a) 0#4).trans (extract_high 0#39 (encodeAccess a)))
  have h3 : (regWord r a).bits.extractLsb' 8 33 = encodeAccess a :=
    (extract_above 4 33 (0#39 ++ encodeAccess a ++ 0#4) r.index).trans (extract_middle 0#39 (encodeAccess a) 0#4)
  have h4 : (regWord r a).bits.extractLsb' 0 4 = r.index := extract_low (0#39 ++ encodeAccess a ++ 0#4) r.index
  show (if _ then _ else _) = _
  rw [if_pos ⟨h1, h2⟩, h3, h4, decodeAccess_encodeAccess, ofIndex_index]

/-- A WR word decodes to that WR. -/
theorem decode_writeWord (r : Reg) (w : Word) : decode (writeWord r w) = .ok (.wr r w) := by
  have h1 : (writeWord r w).bits.extractLsb' 4 4 = 0#4 := extract_middle (0#40 ++ w) 0#4 r.index
  have h2 : (writeWord r w).bits.extractLsb' 40 40 = 0#40 :=
    (extract_above 36 40 (0#40 ++ w ++ 0#4) r.index).trans
      ((extract_above 32 40 (0#40 ++ w) 0#4).trans (extract_high 0#40 w))
  have h3 : (writeWord r w).bits.extractLsb' 8 32 = w :=
    (extract_above 4 32 (0#40 ++ w ++ 0#4) r.index).trans (extract_middle 0#40 w 0#4)
  have h4 : (writeWord r w).bits.extractLsb' 0 4 = r.index := extract_low (0#40 ++ w ++ 0#4) r.index
  show (if _ then _ else _) = _
  rw [if_pos ⟨h1, h2⟩, h3, h4, ofIndex_index]

/-- An RD word decodes to that RD. -/
theorem decode_readWord (r : Reg) : decode (readWord r) = .ok (.rd r) := by
  have h1 : (readWord r).bits.extractLsb' 4 76 = 0#76 := extract_high 0#76 r.index
  have h2 : (readWord r).bits.extractLsb' 0 4 = r.index := extract_low 0#76 r.index
  show (if _ then _ else _) = _
  rw [if_pos h1, h2, ofIndex_index]

/-- A tone request decodes to the SYNTH of its fields. -/
theorem decode_toneWord (f : Word) (a : Sample) (d : Word) : decode (toneWord f a d) = .ok (.synth f a d) := by
  have h1 : (toneWord f a d).bits.extractLsb' 48 32 = f :=
    (extract_above 16 32 (f ++ a) d).trans (extract_high f a)
  have h2 : (toneWord f a d).bits.extractLsb' 32 16 = a := extract_middle f a d
  have h3 : (toneWord f a d).bits.extractLsb' 0 32 = d := extract_low (f ++ a) d
  show Except.ok _ = _
  rw [h1, h2, h3]

end Sys2Proof.Laws
end

