-- ==== Sys2Proof/Laws/Memory.lean ====
section
/-! SUPPORT. The message memory: read after write, and the canonical form kept by every write. -/

namespace Sys2Proof.Laws

open Sys2Proof.Machine

/-- The canonical form, as a pairwise order. -/
theorem wf_iff_pairwise (m : Memory) : Memory.wf m = true ↔ m.Pairwise fun x y => x.1 < y.1 := by
  induction m with
  | nil => simp [Memory.wf]
  | cons c rest ih =>
    cases rest with
    | nil => simp [Memory.wf]
    | cons c' rest =>
      rw [List.pairwise_cons, ← ih]
      simp only [Memory.wf, Bool.and_eq_true, decide_eq_true_eq, List.mem_cons, forall_eq_or_imp]
      constructor
      · rintro ⟨h, hw⟩
        exact ⟨⟨h, fun x hx => h.trans ((List.pairwise_cons.mp (ih.mp hw)).1 x hx)⟩, hw⟩
      · rintro ⟨⟨h, -⟩, hw⟩
        exact ⟨h, hw⟩

theorem mem_write_fst {m : Memory} {i : Nat} {b : Byte} {c : Host.Cell} (h : c ∈ m.write i b) :
    c.1 = i ∨ c ∈ m := by
  induction m with
  | nil => simp only [Memory.write, List.mem_singleton] at h; subst h; exact .inl rfl
  | cons d rest ih =>
    simp only [Memory.write] at h
    split_ifs at h with h1 h2 <;> simp only [List.mem_cons] at h ⊢
    · rcases h with rfl | h <;> simp_all
    · rcases h with rfl | h <;> simp_all
    · rcases h with h | h
      · exact .inr (.inl h)
      · rcases ih h with h | h <;> simp [h]

/-- A write keeps the canonical form. -/
theorem write_wf (m : Memory) (i : Nat) (b : Byte) (h : Memory.wf m = true) : Memory.wf (m.write i b) = true := by
  rw [wf_iff_pairwise] at h ⊢
  induction m with
  | nil => simp [Memory.write]
  | cons d rest ih =>
    rw [List.pairwise_cons] at h
    simp only [Memory.write]
    split_ifs with h1 h2
    · refine List.pairwise_cons.mpr ⟨fun c hc => ?_, List.pairwise_cons.mpr h⟩
      rcases List.mem_cons.mp hc with rfl | hc
      · exact h1
      · exact h1.trans (h.1 c hc)
    · exact List.pairwise_cons.mpr ⟨fun c hc => h2 ▸ h.1 c hc, h.2⟩
    · refine List.pairwise_cons.mpr ⟨fun c hc => ?_, ih h.2⟩
      rcases mem_write_fst hc with hc | hc
      · omega
      · exact h.1 c hc

/-- Reading the byte just written. -/
@[simp] theorem read_write_same (m : Memory) (i : Nat) (b : Byte) : (m.write i b).read i = some b := by
  induction m with
  | nil => simp [Memory.write, Memory.read]
  | cons d rest ih =>
    simp only [Memory.write]
    split_ifs with h1 h2 <;> simp only [Memory.read, if_true]
    rw [if_neg (by omega), ih]

/-- A write leaves every other index alone. -/
theorem read_write_other (m : Memory) (i j : Nat) (b : Byte) (h : j ≠ i) : (m.write i b).read j = m.read j := by
  induction m with
  | nil => simp [Memory.write, Memory.read, h.symm]
  | cons d rest ih =>
    simp only [Memory.write]
    split_ifs with h1 h2 <;> simp only [Memory.read]
    · rw [if_neg h.symm]
    · rw [if_neg h.symm, if_neg (by omega)]
    · rw [ih]

/-- The message after reset is in canonical form. -/
theorem reset_wf : Memory.wf State.reset.msg = true := rfl

end Sys2Proof.Laws
end

