-- ==== Sys2Proof/Laws/State.lean ====
section
/-!
SUPPORT. One lemma per field for the shared state updates: the error entry, the start of a window, an accepted
sample, the turn kept.
-/

namespace Sys2Proof.Laws

open Sys2Proof.Machine

@[simp] theorem raiseError_sampleRate (e : ErrCode) (s : State) : (raiseError e s).sampleRate = s.sampleRate := rfl
@[simp] theorem raiseError_freqOn (e : ErrCode) (s : State) : (raiseError e s).freqOn = s.freqOn := rfl
@[simp] theorem raiseError_freqOff (e : ErrCode) (s : State) : (raiseError e s).freqOff = s.freqOff := rfl
@[simp] theorem raiseError_ampOn (e : ErrCode) (s : State) : (raiseError e s).ampOn = s.ampOn := rfl
@[simp] theorem raiseError_ampOff (e : ErrCode) (s : State) : (raiseError e s).ampOff = s.ampOff := rfl
@[simp] theorem raiseError_symDur (e : ErrCode) (s : State) : (raiseError e s).symDur = s.symDur := rfl
@[simp] theorem raiseError_gap (e : ErrCode) (s : State) : (raiseError e s).gap = s.gap := rfl
@[simp] theorem raiseError_msgLen (e : ErrCode) (s : State) : (raiseError e s).msgLen = s.msgLen := rfl
@[simp] theorem raiseError_busy (e : ErrCode) (s : State) : (raiseError e s).busy = false := rfl
@[simp] theorem raiseError_done (e : ErrCode) (s : State) : (raiseError e s).done = true := rfl
@[simp] theorem raiseError_err (e : ErrCode) (s : State) : (raiseError e s).err = e := rfl
@[simp] theorem raiseError_phase (e : ErrCode) (s : State) : (raiseError e s).phase = .idle := rfl
@[simp] theorem raiseError_tone (e : ErrCode) (s : State) : (raiseError e s).tone = false := rfl
@[simp] theorem raiseError_abortPending (e : ErrCode) (s : State) : (raiseError e s).abortPending = false := rfl
@[simp] theorem raiseError_byteIdx (e : ErrCode) (s : State) : (raiseError e s).byteIdx = s.byteIdx := rfl
@[simp] theorem raiseError_symIdx (e : ErrCode) (s : State) : (raiseError e s).symIdx = s.symIdx := rfl
@[simp] theorem raiseError_sampleIdx (e : ErrCode) (s : State) : (raiseError e s).sampleIdx = s.sampleIdx := rfl
@[simp] theorem raiseError_nSym (e : ErrCode) (s : State) : (raiseError e s).nSym = s.nSym := rfl
@[simp] theorem raiseError_cursor (e : ErrCode) (s : State) : (raiseError e s).cursor = s.cursor := rfl
@[simp] theorem raiseError_shreg (e : ErrCode) (s : State) : (raiseError e s).shreg = s.shreg := rfl
@[simp] theorem raiseError_treqF (e : ErrCode) (s : State) : (raiseError e s).treqF = s.treqF := rfl
@[simp] theorem raiseError_treqA (e : ErrCode) (s : State) : (raiseError e s).treqA = s.treqA := rfl
@[simp] theorem raiseError_port (e : ErrCode) (s : State) : (raiseError e s).port = s.port := rfl
@[simp] theorem raiseError_msg (e : ErrCode) (s : State) : (raiseError e s).msg = s.msg := rfl
@[simp] theorem raiseError_sinkIn (e : ErrCode) (s : State) : (raiseError e s).sinkIn = s.sinkIn := rfl
@[simp] theorem raiseError_msgIn (e : ErrCode) (s : State) : (raiseError e s).msgIn = s.msgIn := rfl
@[simp] theorem raiseError_delayIn (e : ErrCode) (s : State) : (raiseError e s).delayIn = s.delayIn := rfl
@[simp] theorem raiseError_draws (e : ErrCode) (s : State) : (raiseError e s).draws = s.draws := rfl
@[simp] theorem raiseError_sink (e : ErrCode) (s : State) : (raiseError e s).sink = s.sink := rfl
@[simp] theorem raiseError_reads (e : ErrCode) (s : State) : (raiseError e s).reads = s.reads := rfl
@[simp] theorem raiseError_delays (e : ErrCode) (s : State) : (raiseError e s).delays = s.delays := rfl
@[simp] theorem raiseError_rdOut (e : ErrCode) (s : State) : (raiseError e s).rdOut = s.rdOut := rfl
@[simp] theorem raiseError_unitOut (e : ErrCode) (s : State) : (raiseError e s).unitOut = s.unitOut := rfl
@[simp] theorem raiseError_params (e : ErrCode) (s : State) : (raiseError e s).params = s.params := rfl

@[simp] theorem startWindow_sampleRate (d : Word) (s : State) : (startWindow d s).sampleRate = s.sampleRate := rfl
@[simp] theorem startWindow_freqOn (d : Word) (s : State) : (startWindow d s).freqOn = s.freqOn := rfl
@[simp] theorem startWindow_freqOff (d : Word) (s : State) : (startWindow d s).freqOff = s.freqOff := rfl
@[simp] theorem startWindow_ampOn (d : Word) (s : State) : (startWindow d s).ampOn = s.ampOn := rfl
@[simp] theorem startWindow_ampOff (d : Word) (s : State) : (startWindow d s).ampOff = s.ampOff := rfl
@[simp] theorem startWindow_symDur (d : Word) (s : State) : (startWindow d s).symDur = s.symDur := rfl
@[simp] theorem startWindow_gap (d : Word) (s : State) : (startWindow d s).gap = s.gap := rfl
@[simp] theorem startWindow_msgLen (d : Word) (s : State) : (startWindow d s).msgLen = s.msgLen := rfl
@[simp] theorem startWindow_busy (d : Word) (s : State) : (startWindow d s).busy = s.busy := rfl
@[simp] theorem startWindow_done (d : Word) (s : State) : (startWindow d s).done = s.done := rfl
@[simp] theorem startWindow_err (d : Word) (s : State) : (startWindow d s).err = s.err := rfl
@[simp] theorem startWindow_phase (d : Word) (s : State) : (startWindow d s).phase = s.phase := rfl
@[simp] theorem startWindow_tone (d : Word) (s : State) : (startWindow d s).tone = s.tone := rfl
@[simp] theorem startWindow_abortPending (d : Word) (s : State) : (startWindow d s).abortPending = s.abortPending := rfl
@[simp] theorem startWindow_byteIdx (d : Word) (s : State) : (startWindow d s).byteIdx = s.byteIdx := rfl
@[simp] theorem startWindow_symIdx (d : Word) (s : State) : (startWindow d s).symIdx = s.symIdx := rfl
@[simp] theorem startWindow_sampleIdx (d : Word) (s : State) : (startWindow d s).sampleIdx = 0 := rfl
@[simp] theorem startWindow_nSym (d : Word) (s : State) : (startWindow d s).nSym = BitVec.ofNat 64 (sampleCount d s.sampleRate) := rfl
@[simp] theorem startWindow_cursor (d : Word) (s : State) : (startWindow d s).cursor = s.cursor := rfl
@[simp] theorem startWindow_shreg (d : Word) (s : State) : (startWindow d s).shreg = s.shreg := rfl
@[simp] theorem startWindow_treqF (d : Word) (s : State) : (startWindow d s).treqF = s.treqF := rfl
@[simp] theorem startWindow_treqA (d : Word) (s : State) : (startWindow d s).treqA = s.treqA := rfl
@[simp] theorem startWindow_port (d : Word) (s : State) : (startWindow d s).port = s.port := rfl
@[simp] theorem startWindow_msg (d : Word) (s : State) : (startWindow d s).msg = s.msg := rfl
@[simp] theorem startWindow_sinkIn (d : Word) (s : State) : (startWindow d s).sinkIn = s.sinkIn := rfl
@[simp] theorem startWindow_msgIn (d : Word) (s : State) : (startWindow d s).msgIn = s.msgIn := rfl
@[simp] theorem startWindow_delayIn (d : Word) (s : State) : (startWindow d s).delayIn = s.delayIn := rfl
@[simp] theorem startWindow_draws (d : Word) (s : State) : (startWindow d s).draws = s.draws := rfl
@[simp] theorem startWindow_sink (d : Word) (s : State) : (startWindow d s).sink = s.sink := rfl
@[simp] theorem startWindow_reads (d : Word) (s : State) : (startWindow d s).reads = s.reads := rfl
@[simp] theorem startWindow_delays (d : Word) (s : State) : (startWindow d s).delays = s.delays := rfl
@[simp] theorem startWindow_rdOut (d : Word) (s : State) : (startWindow d s).rdOut = s.rdOut := rfl
@[simp] theorem startWindow_unitOut (d : Word) (s : State) : (startWindow d s).unitOut = s.unitOut := rfl
@[simp] theorem startWindow_params (d : Word) (s : State) : (startWindow d s).params = s.params := rfl

@[simp] theorem acceptSample_sampleRate (v : Sample) (s : State) : (acceptSample v s).sampleRate = s.sampleRate := rfl
@[simp] theorem acceptSample_freqOn (v : Sample) (s : State) : (acceptSample v s).freqOn = s.freqOn := rfl
@[simp] theorem acceptSample_freqOff (v : Sample) (s : State) : (acceptSample v s).freqOff = s.freqOff := rfl
@[simp] theorem acceptSample_ampOn (v : Sample) (s : State) : (acceptSample v s).ampOn = s.ampOn := rfl
@[simp] theorem acceptSample_ampOff (v : Sample) (s : State) : (acceptSample v s).ampOff = s.ampOff := rfl
@[simp] theorem acceptSample_symDur (v : Sample) (s : State) : (acceptSample v s).symDur = s.symDur := rfl
@[simp] theorem acceptSample_gap (v : Sample) (s : State) : (acceptSample v s).gap = s.gap := rfl
@[simp] theorem acceptSample_msgLen (v : Sample) (s : State) : (acceptSample v s).msgLen = s.msgLen := rfl
@[simp] theorem acceptSample_busy (v : Sample) (s : State) : (acceptSample v s).busy = s.busy := rfl
@[simp] theorem acceptSample_done (v : Sample) (s : State) : (acceptSample v s).done = s.done := rfl
@[simp] theorem acceptSample_err (v : Sample) (s : State) : (acceptSample v s).err = s.err := rfl
@[simp] theorem acceptSample_phase (v : Sample) (s : State) : (acceptSample v s).phase = s.phase := rfl
@[simp] theorem acceptSample_tone (v : Sample) (s : State) : (acceptSample v s).tone = s.tone := rfl
@[simp] theorem acceptSample_abortPending (v : Sample) (s : State) : (acceptSample v s).abortPending = s.abortPending := rfl
@[simp] theorem acceptSample_byteIdx (v : Sample) (s : State) : (acceptSample v s).byteIdx = s.byteIdx := rfl
@[simp] theorem acceptSample_symIdx (v : Sample) (s : State) : (acceptSample v s).symIdx = s.symIdx := rfl
@[simp] theorem acceptSample_sampleIdx (v : Sample) (s : State) : (acceptSample v s).sampleIdx = s.sampleIdx + 1 := rfl
@[simp] theorem acceptSample_nSym (v : Sample) (s : State) : (acceptSample v s).nSym = s.nSym := rfl
@[simp] theorem acceptSample_cursor (v : Sample) (s : State) : (acceptSample v s).cursor = s.cursor + 1 := rfl
@[simp] theorem acceptSample_shreg (v : Sample) (s : State) : (acceptSample v s).shreg = s.shreg := rfl
@[simp] theorem acceptSample_treqF (v : Sample) (s : State) : (acceptSample v s).treqF = s.treqF := rfl
@[simp] theorem acceptSample_treqA (v : Sample) (s : State) : (acceptSample v s).treqA = s.treqA := rfl
@[simp] theorem acceptSample_port (v : Sample) (s : State) : (acceptSample v s).port = s.port := rfl
@[simp] theorem acceptSample_msg (v : Sample) (s : State) : (acceptSample v s).msg = s.msg := rfl
@[simp] theorem acceptSample_sinkIn (v : Sample) (s : State) : (acceptSample v s).sinkIn = s.sinkIn := rfl
@[simp] theorem acceptSample_msgIn (v : Sample) (s : State) : (acceptSample v s).msgIn = s.msgIn := rfl
@[simp] theorem acceptSample_delayIn (v : Sample) (s : State) : (acceptSample v s).delayIn = s.delayIn := rfl
@[simp] theorem acceptSample_draws (v : Sample) (s : State) : (acceptSample v s).draws = s.draws := rfl
@[simp] theorem acceptSample_sink (v : Sample) (s : State) : (acceptSample v s).sink = s.sink ++ [v] := rfl
@[simp] theorem acceptSample_reads (v : Sample) (s : State) : (acceptSample v s).reads = s.reads := rfl
@[simp] theorem acceptSample_delays (v : Sample) (s : State) : (acceptSample v s).delays = s.delays := rfl
@[simp] theorem acceptSample_rdOut (v : Sample) (s : State) : (acceptSample v s).rdOut = s.rdOut := rfl
@[simp] theorem acceptSample_unitOut (v : Sample) (s : State) : (acceptSample v s).unitOut = s.unitOut := rfl
@[simp] theorem acceptSample_params (v : Sample) (s : State) : (acceptSample v s).params = s.params := rfl

@[simp] theorem holdTurn_sampleRate (s : State) : (holdTurn s).sampleRate = s.sampleRate := rfl
@[simp] theorem holdTurn_freqOn (s : State) : (holdTurn s).freqOn = s.freqOn := rfl
@[simp] theorem holdTurn_freqOff (s : State) : (holdTurn s).freqOff = s.freqOff := rfl
@[simp] theorem holdTurn_ampOn (s : State) : (holdTurn s).ampOn = s.ampOn := rfl
@[simp] theorem holdTurn_ampOff (s : State) : (holdTurn s).ampOff = s.ampOff := rfl
@[simp] theorem holdTurn_symDur (s : State) : (holdTurn s).symDur = s.symDur := rfl
@[simp] theorem holdTurn_gap (s : State) : (holdTurn s).gap = s.gap := rfl
@[simp] theorem holdTurn_msgLen (s : State) : (holdTurn s).msgLen = s.msgLen := rfl
@[simp] theorem holdTurn_busy (s : State) : (holdTurn s).busy = s.busy := rfl
@[simp] theorem holdTurn_done (s : State) : (holdTurn s).done = s.done := rfl
@[simp] theorem holdTurn_err (s : State) : (holdTurn s).err = s.err := rfl
@[simp] theorem holdTurn_phase (s : State) : (holdTurn s).phase = s.phase := rfl
@[simp] theorem holdTurn_tone (s : State) : (holdTurn s).tone = s.tone := rfl
@[simp] theorem holdTurn_abortPending (s : State) : (holdTurn s).abortPending = s.abortPending := rfl
@[simp] theorem holdTurn_byteIdx (s : State) : (holdTurn s).byteIdx = s.byteIdx := rfl
@[simp] theorem holdTurn_symIdx (s : State) : (holdTurn s).symIdx = s.symIdx := rfl
@[simp] theorem holdTurn_sampleIdx (s : State) : (holdTurn s).sampleIdx = s.sampleIdx := rfl
@[simp] theorem holdTurn_nSym (s : State) : (holdTurn s).nSym = s.nSym := rfl
@[simp] theorem holdTurn_cursor (s : State) : (holdTurn s).cursor = s.cursor := rfl
@[simp] theorem holdTurn_shreg (s : State) : (holdTurn s).shreg = s.shreg := rfl
@[simp] theorem holdTurn_treqF (s : State) : (holdTurn s).treqF = s.treqF := rfl
@[simp] theorem holdTurn_treqA (s : State) : (holdTurn s).treqA = s.treqA := rfl
@[simp] theorem holdTurn_port (s : State) : (holdTurn s).port = heldPort s.port := rfl
@[simp] theorem holdTurn_msg (s : State) : (holdTurn s).msg = s.msg := rfl
@[simp] theorem holdTurn_sinkIn (s : State) : (holdTurn s).sinkIn = s.sinkIn := rfl
@[simp] theorem holdTurn_msgIn (s : State) : (holdTurn s).msgIn = s.msgIn := rfl
@[simp] theorem holdTurn_delayIn (s : State) : (holdTurn s).delayIn = s.delayIn := rfl
@[simp] theorem holdTurn_draws (s : State) : (holdTurn s).draws = s.draws := rfl
@[simp] theorem holdTurn_sink (s : State) : (holdTurn s).sink = s.sink := rfl
@[simp] theorem holdTurn_reads (s : State) : (holdTurn s).reads = s.reads := rfl
@[simp] theorem holdTurn_delays (s : State) : (holdTurn s).delays = s.delays := rfl
@[simp] theorem holdTurn_rdOut (s : State) : (holdTurn s).rdOut = s.rdOut := rfl
@[simp] theorem holdTurn_unitOut (s : State) : (holdTurn s).unitOut = s.unitOut := rfl
@[simp] theorem holdTurn_params (s : State) : (holdTurn s).params = s.params := rfl

end Sys2Proof.Laws
end

