-- ==== Sys2Proof/Laws/Ops.lean ====
section
/-!
SUPPORT. One lemma per shared operation that says everything it can do: the draws, the message read, the symbol
opening, the step selection and the guard of the step rows.
-/

namespace Sys2Proof.Laws

open Sys2Proof.Machine Sys2Proof.Safety

/-! ## Draws -/

/-- A draw from the sink changes the coming answers and the draw counter alone. -/
theorem drawSink_frame (s : State) : ∃ l n, (drawSink s).2 = { s with sinkIn := l, draws := n } := by
  unfold drawSink
  split
  · exact ⟨_, s.draws, rfl⟩
  · exact ⟨s.sinkIn, _, rfl⟩

theorem drawSink_cons {s : State} {a : SinkAnswer} {rest : List SinkAnswer} (h : s.sinkIn = a :: rest) :
    drawSink s = (a, { s with sinkIn := rest }) := by
  simp [drawSink, h]

/-- A draw of a message's readiness changes the coming answers and the draw counter alone. -/
theorem drawMessageReady_frame (s : State) : ∃ l n, (drawMessageReady s).2 = { s with msgIn := l, draws := n } := by
  unfold drawMessageReady
  split
  · exact ⟨_, s.draws, rfl⟩
  · exact ⟨s.msgIn, _, rfl⟩

theorem drawMessageReady_cons {s : State} {a : Bool} {rest : List Bool} (h : s.msgIn = a :: rest) :
    drawMessageReady s = (a, { s with msgIn := rest }) := by
  simp [drawMessageReady, h]

/-- A draw of a delay's completion changes the coming answers and the draw counter alone. -/
theorem drawDelayDone_frame (s : State) : ∃ l n, (drawDelayDone s).2 = { s with delayIn := l, draws := n } := by
  unfold drawDelayDone
  split
  · exact ⟨_, s.draws, rfl⟩
  · exact ⟨s.delayIn, _, rfl⟩

theorem drawDelayDone_cons {s : State} {a : Bool} {rest : List Bool} (h : s.delayIn = a :: rest) :
    drawDelayDone s = (a, { s with delayIn := rest }) := by
  simp [drawDelayDone, h]

/-- A message read records the read and, where the message lists no byte, advances the draw counter; nothing else
changes. -/
theorem memRead_frame (s : State) (i : Word) :
    ∃ n, (memRead s i).2 = { s with draws := n, reads := s.reads ++ [(i, (memRead s i).1)] } := by
  unfold memRead messageByte
  cases s.msg.read i.toNat with
  | some b => exact ⟨s.draws, rfl⟩
  | none => exact ⟨s.draws + 1, rfl⟩

theorem memRead_of_listed {s : State} {i : Word} {b : Byte} (h : s.msg.read i.toNat = some b) :
    memRead s i = (b, { s with reads := s.reads ++ [(i, b)] }) := by
  simp [memRead, messageByte, h]

/-! ## The turn kept -/

/-- Keeping the turn adds no event but the block's own step. -/
theorem mem_heldPort {e : PortEvent} {l : List PortEvent} (h : e ∈ heldPort l) : e = .idle ∨ e ∈ l := by
  unfold heldPort at h
  split at h
  · exact .inr h
  · exact .inr h
  · exact List.mem_cons.mp h

/-- With the turn kept, the next boundary is the block's own step or the reset input. -/
theorem heldPort_head {e : PortEvent} {l rest : List PortEvent} (h : heldPort l = e :: rest) :
    e = .idle ∨ e = .resetLine := by
  unfold heldPort at h
  split at h
  all_goals simp_all

theorem heldPort_keepsTurn (l : List PortEvent) : KeepsTurn l (heldPort l) := by
  refine ⟨?_, ?_, ?_⟩
  · rintro rfl; rfl
  · rintro rest rfl; rfl
  · rintro e rest rfl h
    cases e <;> first | rfl | exact absurd rfl h

/-- A state that keeps the turn carries what the environment can cause, if it did before. -/
theorem holdTurn_hostOnly {s : State} (h : HostOnly s) : HostOnly (holdTurn s) := fun e he => by
  rcases mem_heldPort he with rfl | he
  · rfl
  · exact h e he

/-! ## Opening a symbol -/

theorem openSymbol_of_legal {s : State} (i : Fin 11) (h : badArguments s.symDur s.sampleRate = false) :
    openSymbol i s =
      { s with
        symIdx := i, treqF := (mapLevel s (level s.shreg i)).f, treqA := (mapLevel s (level s.shreg i)).a,
        nSym := BitVec.ofNat 64 (windowLength s), sampleIdx := 0, phase := .emitting,
        tone := level s.shreg i } := by
  have hd : (mapLevel s (level s.shreg i)).d = s.symDur := by unfold mapLevel; split <;> rfl
  simp [openSymbol, hd, h, startWindow, windowLength]

theorem openSymbol_of_bad {s : State} (i : Fin 11) (h : badArguments s.symDur s.sampleRate = true) :
    openSymbol i s = raiseError .invalidArgument
      { s with
        symIdx := i, treqF := (mapLevel s (level s.shreg i)).f, treqA := (mapLevel s (level s.shreg i)).a } := by
  have hd : (mapLevel s (level s.shreg i)).d = s.symDur := by unfold mapLevel; split <;> rfl
  simp [openSymbol, hd, h]

/-! ## The sample count -/

/-- Legal arguments give a count below 2^43, so the 64-bit counter holds it (10_state.md R33). -/
theorem windowLength_lt {s : State} (h : badArguments s.symDur s.sampleRate = false) : windowLength s < 2 ^ 43 := by
  simp only [badArguments, decide_eq_false_iff_not, not_or, not_le, not_lt] at h
  have h1 : s.symDur.toInt < 2 ^ 31 := by have := s.symDur.toInt_lt; simpa using this
  have h2 : s.sampleRate.toInt < 2 ^ 31 := by have := s.sampleRate.toInt_lt; simpa using this
  have h3 : s.symDur.toInt * s.sampleRate.toInt ≤ (2 ^ 31 - 1) * (2 ^ 31 - 1) :=
    mul_le_mul (by omega) (by omega) (by omega) (by norm_num)
  have h4 : (s.symDur.toInt * s.sampleRate.toInt).toNat ≤ 4611686014132420609 := by omega
  unfold windowLength sampleCount
  omega

theorem nSym_toNat_of_opened {s : State} (h : badArguments s.symDur s.sampleRate = false)
    (hn : s.nSym = BitVec.ofNat 64 (windowLength s)) : s.nSym.toNat = windowLength s := by
  have := windowLength_lt h
  rw [hn, BitVec.toNat_ofNat, Nat.mod_eq_of_lt (by omega)]

/-! ## The guard of the step rows and the selection -/

theorem whenEnabled_eq_next {i : Instr} {s e t : State} :
    whenEnabled i s e = .next t ↔ selectStep s = some i ∧ e = t := by
  unfold whenEnabled
  split <;> simp_all

theorem whenEnabled_of_selected {i : Instr} {s e : State} (h : selectStep s = some i) :
    whenEnabled i s e = .next e := by
  simp [whenEnabled, h]

theorem selectStep_fetch {s : State} :
    selectStep s = some .fetch ↔ s.busy = true ∧ s.phase = .idle ∧ s.byteIdx.toNat < s.msgLen.toNat := by
  unfold selectStep
  cases s.busy <;> cases s.phase <;> simp <;> split_ifs <;> simp_all

theorem selectStep_finish {s : State} :
    selectStep s = some .finish ↔ s.busy = true ∧ s.phase = .idle ∧ s.byteIdx = s.msgLen := by
  unfold selectStep
  cases s.busy <;> cases s.phase <;> simp <;> split_ifs <;> simp_all
  intro e; simp_all

theorem selectStep_emit {s : State} :
    selectStep s = some .emit ↔ s.busy = true ∧ s.phase = .emitting ∧ s.sampleIdx.toNat < s.nSym.toNat := by
  unfold selectStep
  cases s.busy <;> cases s.phase <;> simp <;> split_ifs <;> simp_all

theorem selectStep_nextsym {s : State} :
    selectStep s = some .nextsym ↔
      s.busy = true ∧ s.phase = .emitting ∧ s.sampleIdx = s.nSym ∧ s.symIdx.val < 10 := by
  unfold selectStep
  cases s.busy <;> cases s.phase <;> simp <;> split_ifs <;> simp_all
  intro e; simp_all

theorem selectStep_endframe {s : State} :
    selectStep s = some .endframe ↔
      s.busy = true ∧ s.phase = .emitting ∧ s.sampleIdx = s.nSym ∧ ¬ s.symIdx.val < 10 := by
  unfold selectStep
  cases s.busy <;> cases s.phase <;> simp <;> split_ifs <;> simp_all
  intro e; simp_all

theorem selectStep_gapdone {s : State} :
    selectStep s = some .gapdone ↔ s.busy = true ∧ s.phase = .gapWait := by
  unfold selectStep
  cases s.busy <;> cases s.phase <;> simp <;> split_ifs <;> simp_all

/-- Only the six steps of R115 are ever selected. -/
theorem selectStep_cases {s : State} {i : Instr} (h : selectStep s = some i) :
    i = .fetch ∨ i = .finish ∨ i = .emit ∨ i = .nextsym ∨ i = .endframe ∨ i = .gapdone := by
  unfold selectStep at h
  cases hb : s.busy <;> cases hp : s.phase <;> simp only [hb, hp] at h <;> split_ifs at h <;> simp_all

end Sys2Proof.Laws
end

