-- ==== Sys2Proof/Laws/Rounding.lean ====
section
/-!
SUPPORT. The rounding of 40_synthesizer.md R85: `roundMagnitude` is `RoundS` of a non-negative rational; `RoundS` is
odd, monotone and the identity on integers.
-/

namespace Sys2Proof.Laws

open Sys2Proof.Machine Sys2Proof.Safety

/-- The floor of a quotient of natural numbers. -/
theorem floor_natCast_div (num den : ℕ) : ⌊(num : ℝ) / den⌋ = (num / den : ℕ) := by
  rw [← Int.natCast_floor_eq_floor (by positivity), Nat.floor_div_eq_div]

theorem roundReal_div (r : SampleRound) (num den : ℕ) (hd : 0 < den) :
    roundReal r ((num : ℝ) / den) = (roundMagnitude r num den : ℤ) := by
  have hd' : (0 : ℝ) < den := by exact_mod_cast hd
  have h0 : (0 : ℝ) ≤ (num : ℝ) / den := by positivity
  have hfl := floor_natCast_div num den
  cases r with
  | nearestAway =>
    simp only [roundReal, roundMagnitude, h0, if_true]
    rw [show (num : ℝ) / den + 1 / 2 = ((2 * num + den : ℕ) : ℝ) / ((2 * den : ℕ) : ℝ) by
      push_cast; field_simp]
    exact floor_natCast_div _ _
  | towardZero => simpa only [roundReal, roundMagnitude, h0, if_true] using hfl
  | nearestEven =>
    have hfrac : (num : ℝ) / den - ⌊(num : ℝ) / den⌋ = ((num % den : ℕ) : ℝ) / den := by
      rw [hfl]
      have : (num : ℝ) = den * (num / den : ℕ) + (num % den : ℕ) := by exact_mod_cast (Nat.div_add_mod num den).symm
      rw [Int.cast_natCast]
      field_simp
      linarith
    have h1 : (((num % den : ℕ) : ℝ) / den < 1 / 2) ↔ 2 * (num % den) < den := by
      rw [div_lt_div_iff₀ hd' (by norm_num)]
      constructor <;> intro h
      · have : ((2 * (num % den) : ℕ) : ℝ) < (den : ℕ) := by push_cast; linarith
        exact_mod_cast this
      · have : ((2 * (num % den) : ℕ) : ℝ) < (den : ℕ) := by exact_mod_cast h
        push_cast at this; linarith
    have h2 : (1 / 2 < ((num % den : ℕ) : ℝ) / den) ↔ den < 2 * (num % den) := by
      rw [div_lt_div_iff₀ (by norm_num) hd']
      constructor <;> intro h
      · have : ((den : ℕ) : ℝ) < (2 * (num % den) : ℕ) := by push_cast; linarith
        exact_mod_cast this
      · have : ((den : ℕ) : ℝ) < (2 * (num % den) : ℕ) := by exact_mod_cast h
        push_cast at this; linarith
    simp only [roundReal, roundMagnitude]
    rw [hfrac, hfl]
    simp only [h1, h2]
    have h3 : ((num / den : ℕ) : ℤ) % 2 = 0 ↔ num / den % 2 = 0 := by omega
    simp only [h3]
    split_ifs <;> push_cast <;> rfl

/-- `RoundS` of an integer is the integer (R85). -/
theorem roundReal_intCast (r : SampleRound) (k : ℤ) : roundReal r (k : ℝ) = k := by
  have h : ⌊(k : ℝ) + 1 / 2⌋ = k := by
    rw [Int.floor_eq_iff]; constructor <;> linarith
  have h' : ⌊-(k : ℝ) + 1 / 2⌋ = -k := by
    rw [Int.floor_eq_iff]; push_cast; constructor <;> linarith
  have h'' : ⌊-(k : ℝ)⌋ = -k := by rw [← Int.cast_neg, Int.floor_intCast]
  cases r with
  | nearestAway => simp only [roundReal, h, h', neg_neg]; split_ifs <;> rfl
  | towardZero => simp only [roundReal, h'', neg_neg, Int.floor_intCast]; split_ifs <;> rfl
  | nearestEven => simp [roundReal]

/-- `RoundS` is odd (R85). -/
theorem roundReal_neg (r : SampleRound) (x : ℝ) : roundReal r (-x) = -roundReal r x := by
  cases r with
  | nearestAway =>
    simp only [roundReal, neg_neg]
    rcases lt_trichotomy x 0 with h | h | h
    · rw [if_pos (by linarith), if_neg (by linarith), neg_neg]
    · subst h
      have : ⌊(0 : ℝ) + 1 / 2⌋ = 0 := by rw [Int.floor_eq_iff]; norm_num
      simp only [neg_zero, le_refl, if_true, this]
    · rw [if_neg (by linarith), if_pos h.le]
  | towardZero =>
    simp only [roundReal, neg_neg]
    rcases lt_trichotomy x 0 with h | h | h
    · rw [if_pos (by linarith), if_neg (by linarith), neg_neg]
    · subst h; simp
    · rw [if_neg (by linarith), if_pos h.le]
  | nearestEven =>
    have hx := Int.floor_le x
    have hx' := Int.lt_floor_add_one x
    rcases eq_or_lt_of_le hx with h | h
    · rw [← h, ← Int.cast_neg, roundReal_intCast, roundReal_intCast]
    · have hf : ⌊-x⌋ = -⌊x⌋ - 1 := by
        rw [Int.floor_eq_iff]; push_cast; constructor <;> linarith
      simp only [roundReal, hf]
      push_cast
      generalize ⌊x⌋ = k at *
      have e1 : -x - (-(k : ℝ) - 1) < 1 / 2 ↔ 1 / 2 < x - k := by constructor <;> intro <;> linarith
      have e2 : 1 / 2 < -x - (-(k : ℝ) - 1) ↔ x - k < 1 / 2 := by constructor <;> intro <;> linarith
      simp only [e1, e2]
      rcases lt_trichotomy (x - k) (1 / 2) with h1 | h1 | h1
      · simp only [h1, h1.not_gt, if_true, if_false]; omega
      · simp only [h1, lt_irrefl, if_false]; split_ifs <;> omega
      · simp only [h1, h1.not_gt, if_true, if_false]; omega

/-- `RoundS` is monotone on the non-negative reals (R85). -/
theorem roundReal_mono_of_nonneg (r : SampleRound) {x y : ℝ} (h0 : 0 ≤ x) (h : x ≤ y) :
    roundReal r x ≤ roundReal r y := by
  have hy : 0 ≤ y := h0.trans h
  cases r with
  | nearestAway => simp only [roundReal, h0, hy, if_true]; exact Int.floor_le_floor (by linarith)
  | towardZero => simp only [roundReal, h0, hy, if_true]; exact Int.floor_le_floor h
  | nearestEven =>
    have hk := Int.floor_le_floor h
    have hx := Int.floor_le x
    have hy := Int.floor_le y
    simp only [roundReal]
    rcases eq_or_lt_of_le hk with e | e
    · rw [e] at hx ⊢
      generalize ⌊y⌋ = k at *
      split_ifs <;> first | omega | (exfalso; linarith)
    · have : ⌊x⌋ + 1 ≤ ⌊y⌋ := e
      split_ifs <;> omega

end Sys2Proof.Laws
end

