-- ==== Sys2Proof/Laws/Step.lean ====
section
/-!
SUPPORT. What one step can do: the port event that is taken, or the block's own step; and what a word on the host's
port can do: an access to one register.
-/

namespace Sys2Proof.Laws

open Sys2Proof.Machine Sys2Proof.Safety

theorem step_of_port_nil {s : State} (h : s.port = []) : step s = blockStep s := by
  simp [step, stepBoundary, h]

theorem step_of_port_cons {s : State} {e : PortEvent} {rest : List PortEvent} (h : s.port = e :: rest) :
    step s = runEvent e { s with port := rest } := by
  simp [step, stepBoundary, h]

/-- The block's own step is the one selected; with none selected an idle block stays as it is. -/
theorem blockStep_eq_next {s t : State} :
    blockStep s = .next t ↔
      (∃ i, selectStep s = some i ∧ exec i s = .next t) ∨ (s.busy = false ∧ s = t) := by
  unfold blockStep
  cases h : selectStep s with
  | some i =>
    simp only [Option.some.injEq, exists_eq_left', iff_self_or, and_imp]
    intro hb
    simp [selectStep, hb] at h
  | none => cases hb : s.busy <;> simp

/-- A row of a register's accesses is an access to that register. -/
theorem exec_ofRegAccess (r : Reg) (a : Access) (s : State) :
    exec (.ofRegAccess r a) s = .next (accessReg r a s) := by
  cases r <;> rfl

/-- A command word is a write to `CMD`. -/
theorem exec_decodeCommand (code : BitVec 8) (s : State) :
    exec (decodeCommand code) s = .next (issueCommand code s) := by
  unfold decodeCommand issueCommand
  split_ifs <;> rfl

/-- A word on the host's port is an access to one register. -/
theorem hostWord_accesses {w : OpWord} {s t : State} (hw : hostWord w = true) (h : runWord w s = .next t) :
    ∃ r a, t = accessReg r a s := by
  obtain ⟨fmt, bits⟩ := w
  cases fmt <;> simp only [hostWord, reduceCtorEq] at hw
  · simp only [runWord, decode] at h
    split_ifs at h
    simp only [exec_decodeCommand] at h
    refine ⟨.cmd, .wr ((bits.extractLsb' 0 8).setWidth 32), ?_⟩
    have : ((bits.extractLsb' 0 8).setWidth 32).extractLsb' 0 8 = bits.extractLsb' 0 8 := by
      ext i hi; simp [hi]; omega
    simp only [accessReg, writeReg, this]
    injection h with h; exact h.symm
  · simp only [runWord, decode] at h
    split_ifs at h
    exact ⟨_, .wr _, by injection h with h; exact h.symm⟩
  · simp only [runWord, decode] at h
    split_ifs at h
    exact ⟨_, .rd, by injection h with h; exact h.symm⟩
  · simp only [runWord, decode] at h
    split_ifs at h
    cases ha : decodeAccess (bits.extractLsb' 8 33) with
    | none => simp only [ha] at h; cases h
    | some a =>
      simp only [ha, exec_ofRegAccess] at h
      exact ⟨_, a, by injection h with h; exact h.symm⟩

/-- Everything an access to a register can do: return a value, start or abort a transmission, store configuration while
`BUSY` = 0, or nothing. -/
theorem accessReg_cases (r : Reg) (a : Access) (s : State) :
    (∃ v, accessReg r a s = { s with rdOut := some v }) ∨
    accessReg r a s = startTransmission s ∨
    accessReg r a s = requestAbort s ∨
    accessReg r a s = s ∨
    (s.busy = false ∧ ∃ c1 c2 c3 c4 c5 c6 c7 c8, accessReg r a s =
      { s with
        sampleRate := c1, freqOn := c2, freqOff := c3, ampOn := c4, ampOff := c5, symDur := c6, gap := c7,
        msgLen := c8 }) := by
  cases a with
  | rd => exact .inl ⟨_, rfl⟩
  | wr w =>
    have stored : ∀ c1 c2 c3 c4 c5 c6 c7 c8,
        writeConfig s { s with
          sampleRate := c1, freqOn := c2, freqOff := c3, ampOn := c4, ampOff := c5, symDur := c6, gap := c7,
          msgLen := c8 } = s ∨
        (s.busy = false ∧ writeConfig s { s with
          sampleRate := c1, freqOn := c2, freqOff := c3, ampOn := c4, ampOff := c5, symDur := c6, gap := c7,
          msgLen := c8 } = { s with
          sampleRate := c1, freqOn := c2, freqOff := c3, ampOn := c4, ampOff := c5, symDur := c6, gap := c7,
          msgLen := c8 }) := by
      intros
      unfold writeConfig
      cases s.busy <;> simp
    cases r with
    | cmd =>
      simp only [accessReg, writeReg, issueCommand]
      split_ifs <;> simp
    | status | byteIdx | symIdx | reserved => exact .inr (.inr (.inr (.inl rfl)))
    | _ =>
      refine .inr (.inr (.inr ((stored _ _ _ _ _ _ _ _).imp_right fun h => ⟨h.1, _, _, _, _, _, _, _, _, h.2⟩)))

/-- Everything a step can do while the port carries only what the environment of the hardware can cause. -/
theorem step_cases {s t : State} (hp : HostOnly s) (h : step s = .next t) :
    ∃ rest, (∀ e ∈ rest, hostEvent e = true) ∧
      ((∃ r a, t = accessReg r a { s with port := rest }) ∨
       (∃ i b, t = { s with port := rest, msg := s.msg.write i b }) ∨
       t = resetBlock { s with port := rest } ∨
       (s.busy = false ∧ t = { s with port := rest }) ∨
       (∃ i, selectStep { s with port := rest } = some i ∧ exec i { s with port := rest } = .next t)) := by
  have own : ∀ rest : List PortEvent, blockStep { s with port := rest } = .next t →
      (s.busy = false ∧ t = { s with port := rest }) ∨
      (∃ i, selectStep { s with port := rest } = some i ∧ exec i { s with port := rest } = .next t) := by
    intro rest hb
    rcases blockStep_eq_next.mp hb with h | ⟨h1, h2⟩
    · exact .inr h
    · exact .inl ⟨h1, h2.symm⟩
  cases hport : s.port with
  | nil =>
    refine ⟨[], by simp, ?_⟩
    rw [step_of_port_nil hport, show s = { s with port := [] } by rw [← hport]] at h
    rcases own [] h with h | h
    · exact .inr (.inr (.inr (.inl h)))
    · exact .inr (.inr (.inr (.inr h)))
  | cons e rest =>
    have hr : ∀ x ∈ rest, hostEvent x = true := fun x hx => hp x (by rw [hport]; exact List.mem_cons_of_mem _ hx)
    have he : hostEvent e = true := hp e (by rw [hport]; exact List.mem_cons_self)
    refine ⟨rest, hr, ?_⟩
    rw [step_of_port_cons hport] at h
    cases e with
    | idle =>
      rcases own rest h with h | h
      · exact .inr (.inr (.inr (.inl h)))
      · exact .inr (.inr (.inr (.inr h)))
    | op w => exact .inl (hostWord_accesses he h)
    | msgByte i b => exact .inr (.inl ⟨i, b, by injection h with h; exact h.symm⟩)
    | resetLine => exact .inr (.inr (.inl (by injection h with h; exact h.symm)))

end Sys2Proof.Laws
end

