-- ==== Sys2Proof/Laws/Transmitter.lean ====
section
/-!
SUPPORT. For each step of the transmitter, everything it can do when it answers a next state.
-/

namespace Sys2Proof.Laws

open Sys2Proof.Machine Sys2Proof.Safety

/-- FETCH takes a pending ABORT, waits with the turn kept, or reads a byte and opens symbol 0. -/
theorem fetch_cases {s t : State} (h : exec .fetch s = .next t) :
    (s.busy = true ∧ s.phase = .idle ∧ s.byteIdx.toNat < s.msgLen.toNat) ∧
    ((s.abortPending = true ∧ t = raiseError .interrupted s) ∨
     (∃ l n, t = holdTurn { s with msgIn := l, draws := n }) ∨
     (∃ l n b, t = openSymbol 0
       { s with msgIn := l, draws := n, reads := s.reads ++ [(s.byteIdx, b)], shreg := b, symIdx := 0 })) := by
  obtain ⟨hs, he⟩ := whenEnabled_eq_next.mp h
  refine ⟨selectStep_fetch.mp hs, ?_⟩
  subst he
  split_ifs with ha
  · exact .inl ⟨ha, rfl⟩
  · obtain ⟨l, n, hd⟩ := drawMessageReady_frame s
    unfold fetchByte
    simp only [hd]
    split_ifs
    · obtain ⟨n', hr⟩ := memRead_frame { s with msgIn := l, draws := n } s.byteIdx
      rw [hr]
      exact .inr (.inr ⟨l, n', _, rfl⟩)
    · exact .inr (.inl ⟨l, n, rfl⟩)

/-- EMIT has the sample accepted, is stalled, or raises SinkFailure. -/
theorem emit_cases {s t : State} (h : exec .emit s = .next t) :
    (s.busy = true ∧ s.phase = .emitting ∧ s.sampleIdx.toNat < s.nSym.toNat) ∧
    ∃ l n,
      t = acceptSample (currentSample s) { s with sinkIn := l, draws := n } ∨
      t = { s with sinkIn := l, draws := n } ∨
      t = raiseError .sinkFailure { s with sinkIn := l, draws := n } := by
  obtain ⟨hs, he⟩ := whenEnabled_eq_next.mp h
  refine ⟨selectStep_emit.mp hs, ?_⟩
  obtain ⟨l, n, hd⟩ := drawSink_frame s
  refine ⟨l, n, ?_⟩
  subst he
  simp only [hd]
  cases (drawSink s).1
  · exact .inl rfl
  · exact .inr (.inl rfl)
  · exact .inr (.inr rfl)

/-- NEXTSYM takes a pending ABORT at the symbol not begun, or opens it. -/
theorem nextsym_cases {s t : State} (h : exec .nextsym s = .next t) :
    (s.busy = true ∧ s.phase = .emitting ∧ s.sampleIdx = s.nSym ∧ s.symIdx.val < 10) ∧
    ((s.abortPending = true ∧ t = raiseError .interrupted { s with symIdx := s.symIdx + 1 }) ∨
     (s.abortPending = false ∧ t = openSymbol (s.symIdx + 1) { s with symIdx := s.symIdx + 1 })) := by
  obtain ⟨hs, he⟩ := whenEnabled_eq_next.mp h
  refine ⟨selectStep_nextsym.mp hs, ?_⟩
  subst he
  cases ha : s.abortPending
  · exact .inr ⟨rfl, by simp⟩
  · exact .inl ⟨rfl, by simp⟩

/-- ENDFRAME goes to the next byte, through a delay or not. -/
theorem endframe_cases {s t : State} (h : exec .endframe s = .next t) :
    (s.busy = true ∧ s.phase = .emitting ∧ s.sampleIdx = s.nSym ∧ ¬ s.symIdx.val < 10) ∧
    ∃ p l, p ≠ .emitting ∧
      t = { s with byteIdx := s.byteIdx + 1, symIdx := 0, tone := false, phase := p, delays := l } := by
  obtain ⟨hs, he⟩ := whenEnabled_eq_next.mp h
  refine ⟨selectStep_endframe.mp hs, ?_⟩
  subst he
  split_ifs
  · exact ⟨.gapWait, _, by decide, rfl⟩
  · exact ⟨.idle, s.delays, by decide, rfl⟩

/-- GAPDONE leaves GapWait or waits. -/
theorem gapdone_cases {s t : State} (h : exec .gapdone s = .next t) :
    (s.busy = true ∧ s.phase = .gapWait) ∧
    ∃ p l n, (p = .idle ∨ p = .gapWait) ∧ t = { s with phase := p, delayIn := l, draws := n } := by
  obtain ⟨hs, he⟩ := whenEnabled_eq_next.mp h
  have hp := selectStep_gapdone.mp hs
  refine ⟨hp, ?_⟩
  obtain ⟨l, n, hd⟩ := drawDelayDone_frame s
  subst he
  simp only [hd]
  split_ifs
  · exact ⟨.idle, l, n, .inl rfl, rfl⟩
  · exact ⟨.gapWait, l, n, .inr rfl, by rw [← hp.2]⟩

/-- FINISH ends the transmission. -/
theorem finish_cases {s t : State} (h : exec .finish s = .next t) :
    (s.busy = true ∧ s.phase = .idle ∧ s.byteIdx = s.msgLen) ∧
    t = { s with busy := false, done := true, err := .ok, abortPending := false } := by
  obtain ⟨hs, he⟩ := whenEnabled_eq_next.mp h
  exact ⟨selectStep_finish.mp hs, he.symm⟩

/-- The six steps: a property of every outcome of every step holds of the step selected. -/
theorem selected_cases {s t : State} {i : Instr} (hi : selectStep s = some i) (h : exec i s = .next t) :
    exec .fetch s = .next t ∨ exec .emit s = .next t ∨ exec .nextsym s = .next t ∨ exec .endframe s = .next t ∨
    exec .gapdone s = .next t ∨ exec .finish s = .next t := by
  rcases selectStep_cases hi with rfl | rfl | rfl | rfl | rfl | rfl <;> simp [h]

end Sys2Proof.Laws
end

