-- ==== Sys2Proof/Laws/Run.lean ====
section
/-!
SUPPORT. Runs of several steps: a run is its first step and the rest, and two runs one after the other are one run.
-/

namespace Sys2Proof.Laws

open Sys2Proof.Machine

/-- A run whose first step answers a next state goes on from it. -/
theorem run_succ_of_next {M : Host.Core} {k : Nat} {s t : M.State} (h : M.step s = .next t) :
    M.run (k + 1) s = M.run k t := by
  rw [Host.Core.run, h]

/-- A run that reaches a state goes on from it. -/
theorem run_add {M : Host.Core} {a b : Nat} {s t : M.State} (h : M.run a s = .next t) :
    M.run (a + b) s = M.run b t := by
  induction a generalizing s with
  | zero =>
    rw [Host.Core.run] at h
    cases h
    rw [Nat.zero_add]
  | succ a ih =>
    rw [Nat.add_right_comm]
    cases hs : M.step s with
    | next s' =>
      rw [run_succ_of_next hs] at h ⊢
      exact ih h
    | fault r =>
      rw [Host.Core.run, hs] at h
      cases h
    | refused r =>
      rw [Host.Core.run, hs] at h
      cases h

/-- With nothing on the port the step is the one selected. -/
theorem step_of_selected {s t : State} {i : Instr} (hp : s.port = []) (hs : selectStep s = some i)
    (he : exec i s = .next t) : step s = .next t := by
  rw [step_of_port_nil hp]
  simp [blockStep, hs, he]

end Sys2Proof.Laws
end

