-- ==== Sys2Proof/Laws/Sine.lean ====
section
/-!
SUPPORT. The rational bounds of pi and of the sine that Machine/Sine.lean computes with are bounds of the real
numbers, and how close they are: pi by Machin's formula, the sine by its alternating Taylor series.
-/

namespace Sys2Proof.Laws

open Finset Sys2Proof.Machine

/-- The partial sums of the arctangent series bound it on both sides. -/
theorem arctan_partial_sums (x : ℝ) (h0 : 0 < x) (h1 : x < 1) (k : ℕ) :
    ∑ i ∈ range (2 * k), (-1 : ℝ) ^ i * (x ^ (2 * i + 1) / (2 * i + 1)) ≤ Real.arctan x ∧
    Real.arctan x ≤ ∑ i ∈ range (2 * k + 1), (-1 : ℝ) ^ i * (x ^ (2 * i + 1) / (2 * i + 1)) := by
  have hs := (Real.hasSum_arctan (x := x) (by rwa [Real.norm_eq_abs, abs_of_pos h0])).tendsto_sum_nat
  have ht : Filter.Tendsto (fun n => ∑ i ∈ range n, (-1 : ℝ) ^ i * (x ^ (2 * i + 1) / (2 * i + 1)))
      Filter.atTop (nhds (Real.arctan x)) :=
    hs.congr fun n => sum_congr rfl fun i _ => by push_cast; ring
  have ha : Antitone fun i : ℕ => x ^ (2 * i + 1) / ((2 * i + 1 : ℝ)) := by
    refine antitone_nat_of_succ_le fun n => ?_
    apply div_le_div₀ (by positivity) _ (by positivity) (by push_cast; linarith)
    exact pow_le_pow_of_le_one h0.le h1.le (by omega)
  exact ⟨ha.alternating_series_le_tendsto ht k, ha.tendsto_le_alternating_series ht k⟩

theorem arctanSum_eq (k n : ℕ) :
    (arctanSum k n : ℝ) = ∑ i ∈ range n, (-1 : ℝ) ^ i * ((1 / (k : ℝ)) ^ (2 * i + 1) / (2 * i + 1)) := by
  induction n with
  | zero => simp [arctanSum]
  | succ n ih => rw [sum_range_succ, ← ih]; simp [arctanSum]

theorem sineSum_eq (x : ℚ) (n : ℕ) :
    (sineSum x n : ℝ) = ∑ i ∈ range n, (-1 : ℝ) ^ i * ((x : ℝ) ^ (2 * i + 1) / (2 * i + 1).factorial) := by
  induction n with
  | zero => simp [sineSum]
  | succ n ih => rw [sum_range_succ, ← ih]; simp [sineSum]

/-- The partial sums of the arctangent series at `1 / k` bound it on both sides. -/
theorem arctanSum_bounds (k n : ℕ) (hk : 1 < k) :
    (arctanSum k (2 * n) : ℝ) ≤ Real.arctan (k : ℝ)⁻¹ ∧ Real.arctan (k : ℝ)⁻¹ ≤ arctanSum k (2 * n + 1) := by
  have hk' : (1 : ℝ) < k := by exact_mod_cast hk
  simpa [arctanSum_eq] using arctan_partial_sums (k : ℝ)⁻¹ (by positivity) (inv_lt_one_of_one_lt₀ hk') n

theorem piLower_le_pi (n : ℕ) : (piLower n : ℝ) ≤ Real.pi := by
  have h := Real.four_mul_arctan_inv_5_sub_arctan_inv_239
  have h5 := (arctanSum_bounds 5 n (by norm_num)).1
  have h239 := (arctanSum_bounds 239 n (by norm_num)).2
  push_cast [piLower] at *
  linarith

theorem pi_le_piUpper (n : ℕ) : Real.pi ≤ piUpper n := by
  have h := Real.four_mul_arctan_inv_5_sub_arctan_inv_239
  have h5 := (arctanSum_bounds 5 n (by norm_num)).2
  have h239 := (arctanSum_bounds 239 n (by norm_num)).1
  push_cast [piUpper] at *
  linarith

/-- The two bounds of pi differ by one term of each series. -/
theorem piUpper_sub_piLower_le (n : ℕ) : (piUpper n : ℝ) - piLower n ≤ 4 / 4 ^ n := by
  have hterm : ∀ k : ℕ, 0 < k → (1 / (k : ℝ)) ^ (2 * (2 * n) + 1) / (2 * (2 * n : ℕ) + 1) ≤ 1 / k * (1 / (k : ℝ) ^ 4) ^ n := by
    intro k hk
    have hk' : (0 : ℝ) < k := by exact_mod_cast hk
    calc (1 / (k : ℝ)) ^ (2 * (2 * n) + 1) / (2 * (2 * n : ℕ) + 1) ≤ (1 / (k : ℝ)) ^ (2 * (2 * n) + 1) :=
          div_le_self (by positivity) (by push_cast; linarith [Nat.cast_nonneg (α := ℝ) n])
      _ = 1 / k * (1 / (k : ℝ) ^ 4) ^ n := by rw [pow_succ, ← mul_assoc, pow_mul, mul_comm]; norm_num
  have h5 := hterm 5 (by norm_num)
  have h239 := hterm 239 (by norm_num)
  have e5 : (1 / (5 : ℝ) ^ 4) ^ n ≤ (1 / 4) ^ n := pow_le_pow_left₀ (by norm_num) (by norm_num) n
  have e239 : (1 / (239 : ℝ) ^ 4) ^ n ≤ (1 / 4) ^ n := pow_le_pow_left₀ (by norm_num) (by norm_num) n
  have e0 : (0 : ℝ) ≤ (1 / 4) ^ n := by positivity
  have e4 : (4 : ℝ) / 4 ^ n = 4 * (1 / 4) ^ n := by rw [one_div, inv_pow]; rfl
  have hs : ((-1 : ℝ)) ^ (2 * n) = 1 := by rw [pow_mul]; norm_num
  rw [e4]
  push_cast [piUpper, piLower, arctanSum] at *
  rw [hs]
  linarith

theorem piLower_nonneg {n : ℕ} (hn : 0 < n) : (0 : ℝ) ≤ piLower n := by
  have h1 := piUpper_sub_piLower_le n
  have h2 := pi_le_piUpper n
  have h3 := Real.pi_gt_three
  have h4 : (4 : ℝ) / 4 ^ n ≤ 1 := by
    rw [div_le_one (by positivity)]
    simpa using pow_le_pow_right₀ (by norm_num : (1 : ℝ) ≤ 4) hn
  linarith

/-- The partial sums of the sine series bound it on both sides, up to the square root of 6. -/
theorem sin_partial_sums (x : ℝ) (h0 : 0 ≤ x) (h1 : x ^ 2 ≤ 6) (k : ℕ) :
    ∑ i ∈ range (2 * k), (-1 : ℝ) ^ i * (x ^ (2 * i + 1) / (2 * i + 1).factorial) ≤ Real.sin x ∧
    Real.sin x ≤ ∑ i ∈ range (2 * k + 1), (-1 : ℝ) ^ i * (x ^ (2 * i + 1) / (2 * i + 1).factorial) := by
  have hs := (Real.hasSum_sin x).tendsto_sum_nat
  have ht : Filter.Tendsto (fun n => ∑ i ∈ range n, (-1 : ℝ) ^ i * (x ^ (2 * i + 1) / (2 * i + 1).factorial))
      Filter.atTop (nhds (Real.sin x)) :=
    hs.congr fun n => sum_congr rfl fun i _ => by ring
  have ha : Antitone fun i : ℕ => x ^ (2 * i + 1) / ((2 * i + 1).factorial : ℝ) := by
    refine antitone_nat_of_succ_le fun n => ?_
    have hf : ((2 * (n + 1) + 1).factorial : ℝ) = (2 * n + 3) * (2 * n + 2) * (2 * n + 1).factorial := by
      rw [show 2 * (n + 1) + 1 = (2 * n + 1) + 1 + 1 by ring, Nat.factorial_succ, Nat.factorial_succ]
      push_cast; ring
    have hp : (0 : ℝ) < (2 * n + 1).factorial := by positivity
    have hn : (0 : ℝ) ≤ n := by positivity
    rw [hf, div_le_div_iff₀ (by positivity) hp, show 2 * (n + 1) + 1 = (2 * n + 1) + 2 by ring, pow_add]
    have : x ^ 2 ≤ (2 * n + 3) * (2 * n + 2) := by nlinarith
    have hx : 0 ≤ x ^ (2 * n + 1) * ((2 * n + 1).factorial : ℝ) := by positivity
    nlinarith
  exact ⟨ha.alternating_series_le_tendsto ht k, ha.tendsto_le_alternating_series ht k⟩

/-- A term of the sine series at an angle of at most 2. -/
theorem sine_term_le (x : ℝ) (h0 : 0 ≤ x) (h2 : x ≤ 2) (n : ℕ) :
    x ^ (2 * (2 * n) + 1) / (2 * (2 * n) + 1).factorial ≤ 2 / 4 ^ n := by
  refine (div_le_div_of_nonneg_right (pow_le_pow_left₀ h0 h2 _) (by positivity)).trans ?_
  induction n with
  | zero => norm_num
  | succ n ih =>
    have hf : ((2 * (2 * (n + 1)) + 1).factorial : ℝ) =
        (4 * n + 5) * (4 * n + 4) * (4 * n + 3) * (4 * n + 2) * (2 * (2 * n) + 1).factorial := by
      rw [show 2 * (2 * (n + 1)) + 1 = (2 * (2 * n) + 1) + 1 + 1 + 1 + 1 by ring]
      simp only [Nat.factorial_succ]
      push_cast; ring
    have hp : (0 : ℝ) < (2 * (2 * n) + 1).factorial := by positivity
    have hn : (0 : ℝ) ≤ n := by positivity
    have h64 : (64 : ℝ) ≤ (4 * n + 5) * (4 * n + 4) * (4 * n + 3) * (4 * n + 2) := by
      have h1 : (20 : ℝ) ≤ (4 * n + 5) * (4 * n + 4) := by nlinarith
      have h3 : (6 : ℝ) ≤ (4 * n + 3) * (4 * n + 2) := by nlinarith
      nlinarith
    rw [div_le_div_iff₀ hp (by positivity)] at ih
    rw [hf, div_le_div_iff₀ (by positivity) (by positivity), show 2 * (2 * (n + 1)) + 1 = 2 * (2 * n) + 1 + 4 by ring,
      pow_add, pow_succ (4 : ℝ) n]
    have := mul_le_mul_of_nonneg_right h64 (show (0 : ℝ) ≤ 2 * (2 * (2 * n) + 1).factorial by positivity)
    nlinarith

/-- In the first quarter turn the two bounds enclose the sine of `m / q` of half a turn, and the lower one is close. -/
theorem sine_enclosure (n m q : ℕ) (hn : 0 < n) (h : 2 * m < q) :
    (sineLower n m q : ℝ) ≤ Real.sin (Real.pi * m / q) ∧
    Real.sin (Real.pi * m / q) ≤ sineUpper n m q ∧
    Real.sin (Real.pi * m / q) - sineLower n m q ≤ 4 / 4 ^ n := by
  have hq : (0 : ℝ) < q := by exact_mod_cast (by omega : 0 < q)
  have hr0 : (0 : ℝ) ≤ m / q := by positivity
  have hr1 : (m : ℝ) / q ≤ 1 / 2 := by
    rw [div_le_div_iff₀ hq (by norm_num)]
    have : (2 * m : ℝ) ≤ q := by exact_mod_cast h.le
    linarith
  set x : ℝ := ((piLower n * m / q : ℚ) : ℝ) with hx
  have ex : x = piLower n * (m / q) := by rw [hx]; push_cast; ring
  have eθ : Real.pi * m / q = Real.pi * (m / q) := by ring
  have hpi := piLower_le_pi n
  have hpi' := pi_le_piUpper n
  have hx0 : 0 ≤ x := by rw [ex]; exact mul_nonneg (piLower_nonneg hn) hr0
  have hxθ : x ≤ Real.pi * m / q := by rw [ex, eθ]; exact mul_le_mul_of_nonneg_right hpi hr0
  have hθ2 : Real.pi * m / q ≤ Real.pi / 2 := by rw [eθ]; nlinarith [Real.pi_pos]
  have hpi4 := Real.pi_le_four
  have hx2 : x ≤ 2 := by linarith
  obtain ⟨hlo, hhi⟩ := sin_partial_sums x hx0 (by nlinarith) n
  rw [← sineSum_eq] at hlo hhi
  have hsin0 : 0 ≤ Real.sin (Real.pi * m / q) :=
    Real.sin_nonneg_of_nonneg_of_le_pi (hx0.trans hxθ) (by linarith)
  have hmono : Real.sin x ≤ Real.sin (Real.pi * m / q) :=
    Real.sin_le_sin_of_le_of_le_pi_div_two (by linarith) hθ2 hxθ
  have hgrow : Real.sin (Real.pi * m / q) - Real.sin x ≤ (piUpper n - piLower n) * (m / q) := by
    have h1 : Real.sin (Real.pi * m / q) - Real.sin x ≤ Real.pi * m / q - x := by
      have := Real.abs_sin_sub_sin_le (Real.pi * m / q) x
      rw [abs_of_nonneg (sub_nonneg.mpr hmono), abs_of_nonneg (sub_nonneg.mpr hxθ)] at this
      exact this
    have h2 : Real.pi * m / q - x = (Real.pi - piLower n) * (m / q) := by rw [ex]; ring
    exact (h1.trans_eq h2).trans (mul_le_mul_of_nonneg_right (sub_le_sub_right hpi' _) hr0)
  have hterm : (sineSum (piLower n * m / q) (2 * n + 1) : ℝ) - sineSum (piLower n * m / q) (2 * n) ≤ 2 / 4 ^ n := by
    have hs : ((-1 : ℝ)) ^ (2 * n) = 1 := by rw [pow_mul]; norm_num
    have := sine_term_le x hx0 hx2 n
    rw [sineSum, Rat.cast_add, add_sub_cancel_left]
    push_cast at this ⊢
    rw [hs, one_mul]
    simpa [hx] using this
  have hwidth : ((piUpper n : ℝ) - piLower n) * (m / q) ≤ 2 / 4 ^ n := by
    have h1 := piUpper_sub_piLower_le n
    calc ((piUpper n : ℝ) - piLower n) * (m / q) ≤ 4 / 4 ^ n * (1 / 2) :=
          mul_le_mul h1 hr1 hr0 (by positivity)
      _ = 2 / 4 ^ n := by ring
  have e4 : (4 : ℝ) / 4 ^ n = 2 / 4 ^ n + 2 / 4 ^ n := by ring
  refine ⟨?_, ?_, ?_⟩
  · unfold sineLower
    push_cast
    exact max_le hsin0 (hlo.trans hmono)
  · unfold sineUpper
    push_cast at hhi ⊢
    have : ((piUpper n : ℝ) - piLower n) * m / q = (piUpper n - piLower n) * (m / q) := by ring
    linarith
  · have : (sineSum (piLower n * m / q) (2 * n) : ℝ) ≤ sineLower n m q := by
      exact_mod_cast le_max_right _ _
    linarith

end Sys2Proof.Laws
end

