-- ==== Sys2Proof/Laws/SineExact.lean ====
section
/-!
SUPPORT. The sample is exact: `sampleMagnitude` and `roundedSine` are the rounding of the exact real value, for every
input. Twice an exact sample value is an algebraic integer of a cyclotomic field. If it is an integer the sine is 0, 1/2
or 1 (Niven); if not, it is so far from every integer that the bounds at `enoughTerms` cannot straddle a rounding
threshold.
-/

namespace Sys2Proof.Laws

open IntermediateField Polynomial Sys2Proof.Machine Sys2Proof.Safety

/-- If a product of at most `N` factors between 0 and `B` is at least 1, no factor is small. -/
theorem one_le_factor_mul_pow {ι : Type*} [Fintype ι] (f : ι → ℝ) {B : ℝ} {N : ℕ} (h0 : ∀ i, 0 ≤ f i)
    (hB : ∀ i, f i ≤ B) (hB1 : 1 ≤ B) (hN : Fintype.card ι ≤ N) (h : 1 ≤ ∏ i, f i) (j : ι) : 1 ≤ f j * B ^ N := by
  classical
  rw [← Finset.mul_prod_erase _ f (Finset.mem_univ j)] at h
  refine h.trans (mul_le_mul_of_nonneg_left ?_ (h0 j))
  calc ∏ i ∈ Finset.univ.erase j, f i ≤ ∏ _i ∈ Finset.univ.erase j, B :=
        Finset.prod_le_prod (fun i _ => h0 i) fun i _ => hB i
    _ = B ^ (Finset.univ.erase j).card := Finset.prod_const _
    _ ≤ B ^ N := pow_le_pow_right₀ hB1 (Finset.card_erase_le.trans hN)

/-- A combination of two roots of unity and an integer, if not 0, is not small: its norm is a non-zero integer, and every
conjugate is at most `B`. -/
theorem one_le_norm_mul_pow {N : ℕ} (hN : 0 < N) {ω : ℂ} (hω : ω ^ N = 1) (a : ℕ) (b : ℤ) (u v : ℕ)
    (hne : (a : ℂ) * (ω ^ u - ω ^ v) - b ≠ 0) {B : ℝ} (hB1 : 1 ≤ B) (hB : 2 * a + |(b : ℝ)| ≤ B) :
    1 ≤ ‖(a : ℂ) * (ω ^ u - ω ^ v) - b‖ * B ^ N := by
  have hint : IsIntegral ℚ ω := .of_pow hN (hω ▸ isIntegral_one)
  have : FiniteDimensional ℚ ℚ⟮ω⟯ := adjoin.finiteDimensional hint
  let g : ℚ⟮ω⟯ := AdjoinSimple.gen ℚ ω
  have hg : g ^ N = 1 := Subtype.ext (by simpa [g] using hω)
  let α : ℚ⟮ω⟯ := (a : ℚ⟮ω⟯) * (g ^ u - g ^ v) - b
  have hαω : (ℚ⟮ω⟯.val α) = (a : ℂ) * (ω ^ u - ω ^ v) - b := by simp [α, g]
  have hα0 : α ≠ 0 := by rintro h0; rw [h0, map_zero] at hαω; exact hne hαω.symm
  -- every conjugate is at most `B`
  have hconj : ∀ σ : ℚ⟮ω⟯ →ₐ[ℚ] ℂ, ‖σ α‖ ≤ B := by
    intro σ
    have h1 : ‖σ g‖ = 1 := by
      have : σ g ^ N = 1 := by rw [← map_pow, hg, map_one]
      exact Complex.norm_eq_one_of_pow_eq_one this hN.ne'
    have h2 : σ α = (a : ℂ) * (σ g ^ u - σ g ^ v) - b := by simp [α]
    rw [h2]
    calc ‖(a : ℂ) * (σ g ^ u - σ g ^ v) - b‖ ≤ ‖(a : ℂ)‖ * (‖σ g ^ u‖ + ‖σ g ^ v‖) + ‖(b : ℂ)‖ := by
          refine (norm_sub_le _ _).trans (add_le_add_left ?_ _)
          rw [norm_mul]
          exact mul_le_mul_of_nonneg_left (norm_sub_le _ _) (norm_nonneg _)
      _ = 2 * a + |(b : ℝ)| := by
          rw [norm_pow, norm_pow, h1]; simp; ring
      _ ≤ B := hB
  -- the norm is an integer other than 0
  have hgi : IsIntegral ℤ g := .of_pow hN (hg ▸ isIntegral_one)
  have hαi : IsIntegral ℤ α :=
    ((isIntegral_algebraMap (R := ℤ) (x := (a : ℤ))).mul ((hgi.pow u).sub (hgi.pow v))).sub
      (isIntegral_algebraMap (R := ℤ) (x := b)) |> fun h => by simpa [α] using h
  obtain ⟨k, hk⟩ := IsIntegrallyClosed.isIntegral_iff.mp (Algebra.isIntegral_norm ℚ hαi)
  have hprod := Algebra.norm_eq_prod_embeddings ℚ ℂ α
  have hk0 : k ≠ 0 := by
    rintro rfl
    rw [map_zero] at hk
    exact hα0 (Algebra.norm_eq_zero_iff.mp hk.symm)
  have hcard : Fintype.card (ℚ⟮ω⟯ →ₐ[ℚ] ℂ) ≤ N := by
    rw [AlgHom.card, adjoin.finrank hint]
    have hd : minpoly ℚ ω ∣ X ^ N - 1 := minpoly.dvd ℚ ω (by simp [hω])
    have := natDegree_le_of_dvd hd (X_pow_sub_C_ne_zero hN (1 : ℚ))
    rwa [show (X ^ N - 1 : ℚ[X]) = X ^ N - C 1 by simp, natDegree_X_pow_sub_C] at this
  have hnorm : 1 ≤ ∏ σ : ℚ⟮ω⟯ →ₐ[ℚ] ℂ, ‖σ α‖ := by
    rw [← norm_prod, ← hprod, ← hk]
    simp only [eq_intCast, map_intCast, Complex.norm_intCast]
    exact_mod_cast Int.one_le_abs hk0
  rw [← hαω]
  exact one_le_factor_mul_pow _ (fun _ => norm_nonneg _) hconj hB1 hcard hnorm _

/-- Twice a sine at a rational part of half a turn is a difference of two roots of unity. -/
theorem two_sin_eq_sub_pow {m q : ℕ} (hq : 0 < q) (h : 2 * m < q) :
    ∃ ω : ℂ, ω ^ (4 * q) = 1 ∧
      ((2 * Real.sin (Real.pi * m / q) : ℝ) : ℂ) = ω ^ (3 * q + 2 * m) - ω ^ (3 * q - 2 * m) := by
  have hq' : (q : ℂ) ≠ 0 := by exact_mod_cast hq.ne'
  refine ⟨Complex.exp (Real.pi / (2 * q) * Complex.I), ?_, ?_⟩
  · rw [← Complex.exp_nat_mul, show ((4 * q : ℕ) : ℂ) * (Real.pi / (2 * q) * Complex.I) = 2 * Real.pi * Complex.I by
      push_cast; field_simp; norm_num, Complex.exp_two_pi_mul_I]
  · have e1 : ((3 * q + 2 * m : ℕ) : ℂ) * (Real.pi / (2 * q) * Complex.I) =
        ((Real.pi + Real.pi / 2 : ℝ) + (Real.pi * m / q : ℝ)) * Complex.I := by
      push_cast; field_simp; ring
    have e2 : ((3 * q - 2 * m : ℕ) : ℂ) * (Real.pi / (2 * q) * Complex.I) =
        ((Real.pi + Real.pi / 2 : ℝ) - (Real.pi * m / q : ℝ)) * Complex.I := by
      rw [Nat.cast_sub (by omega)]; push_cast; field_simp; ring
    have c : Real.cos (Real.pi + Real.pi / 2) = 0 := by rw [Real.cos_add]; simp
    have s : Real.sin (Real.pi + Real.pi / 2) = -1 := by rw [Real.sin_add]; simp
    rw [← Complex.exp_nat_mul, ← Complex.exp_nat_mul, e1, e2, Complex.exp_mul_I, Complex.exp_mul_I]
    simp only [Complex.cos_add, Complex.cos_sub, Complex.sin_add, Complex.sin_sub, ← Complex.ofReal_cos,
      ← Complex.ofReal_sin, c, s]
    push_cast
    ring

/-- Where the sine is not one of 0, 1/2 and 1, it is not rational (Niven). -/
theorem sin_ne_of_twiceSine_none {m q : ℕ} (h : 2 * m ≤ q) (hq : 0 < q) (ht : twiceSine m q = none) (x : ℚ) :
    Real.sin (Real.pi * m / q) ≠ x := by
  intro hx
  have hq' : (0 : ℝ) < q := by exact_mod_cast hq
  have hm : m ≠ 0 ∧ 6 * m ≠ q ∧ 2 * m ≠ q := by
    unfold twiceSine at ht
    split_ifs at ht with h0 h1 h2
    exact ⟨h0, h1, h2⟩
  have hpi := Real.pi_pos
  have hθ0 : 0 ≤ Real.pi * m / q := by positivity
  have hθ2 : Real.pi * m / q ≤ Real.pi / 2 := by
    have : (2 * m : ℝ) ≤ q := by exact_mod_cast h
    rw [div_le_div_iff₀ hq' (by norm_num)]
    nlinarith
  have hθ : Real.pi * m / q ∈ Set.Icc (-(Real.pi / 2)) (Real.pi / 2) := ⟨by linarith, hθ2⟩
  have hs0 := Real.sin_nonneg_of_nonneg_of_le_pi hθ0 (by linarith)
  have angle : ∀ k : ℕ, 2 ≤ k → Real.sin (Real.pi * m / q) = Real.sin (Real.pi / k) → k * m = q := by
    intro k hk e
    have hk' : (2 : ℝ) ≤ k := by exact_mod_cast hk
    have hk2 : Real.pi / k ≤ Real.pi / 2 := div_le_div_of_nonneg_left hpi.le (by norm_num) hk'
    have e' := Real.injOn_sin hθ ⟨by linarith [show (0 : ℝ) ≤ Real.pi / k by positivity], hk2⟩ e
    rw [div_eq_div_iff hq'.ne' (by positivity), mul_assoc] at e'
    have := mul_left_cancel₀ hpi.ne' e'
    have : m * k = q := by exact_mod_cast this
    rw [mul_comm]; exact this
  rcases niven_sin ⟨(m : ℚ) / q, by push_cast; ring⟩ ⟨x, hx⟩ with e | e | e | e | e
  · linarith
  · linarith
  · have := Real.injOn_sin hθ ⟨by linarith, by linarith⟩ (e.trans Real.sin_zero.symm)
    rw [div_eq_zero_iff] at this
    have hm' : (m : ℝ) ≠ 0 := by exact_mod_cast hm.1
    rcases this with h1 | h1
    · exact (mul_ne_zero hpi.ne' hm') h1
    · exact hq'.ne' h1
  · exact hm.2.1 (angle 6 (by norm_num) (by push_cast; rw [e, Real.sin_pi_div_six]))
  · exact hm.2.2 (angle 2 (by norm_num) (by push_cast; rw [e, Real.sin_pi_div_two]))

/-- Twice an exact sample value is an integer or far from every one. -/
theorem two_mul_sin_far {a m q : ℕ} {b : ℤ} (h : 2 * m < q) (ht : twiceSine m q = none) (ha0 : 0 < a)
    (ha : a ≤ 32768) (hb0 : 0 ≤ b) (hb : b ≤ 2 * a) :
    1 ≤ |2 * (a * Real.sin (Real.pi * m / q)) - b| * 2 ^ (68 * q) := by
  have hq : 0 < q := by omega
  obtain ⟨ω, hω, hs⟩ := two_sin_eq_sub_pow hq h
  have e : ((2 * (a * Real.sin (Real.pi * m / q)) - b : ℝ) : ℂ) =
      a * (ω ^ (3 * q + 2 * m) - ω ^ (3 * q - 2 * m)) - b := by
    rw [← hs]; push_cast; ring
  have hne : (a : ℂ) * (ω ^ (3 * q + 2 * m) - ω ^ (3 * q - 2 * m)) - b ≠ 0 := by
    rw [← e, Complex.ofReal_ne_zero]
    intro h0
    have ha' : (a : ℝ) ≠ 0 := by exact_mod_cast ha0.ne'
    refine sin_ne_of_twiceSine_none h.le hq ht (b / (2 * a)) ?_
    push_cast
    field_simp
    linarith
  have hB : 2 * (a : ℝ) + |(b : ℝ)| ≤ 2 ^ 17 := by
    have h1 : (a : ℝ) ≤ 32768 := by exact_mod_cast ha
    have h2 : (b : ℝ) ≤ 2 * a := by exact_mod_cast hb
    rw [abs_of_nonneg (by exact_mod_cast hb0)]
    norm_num; linarith
  have := one_le_norm_mul_pow (by omega) hω a b _ _ hne (by norm_num) hB
  rwa [← e, Complex.norm_real, Real.norm_eq_abs, ← pow_mul, show 17 * (4 * q) = 68 * q by ring] at this

/-- Numbers whose doubles lie strictly between the same two integers round alike. -/
theorem roundReal_eq_of_between (r : SampleRound) {x y : ℝ} {b : ℤ} (hb : 0 ≤ b) (hx : b < 2 * x ∧ 2 * x < b + 1)
    (hy : b < 2 * y ∧ 2 * y < b + 1) : roundReal r x = roundReal r y := by
  have key : ∀ z : ℝ, b < 2 * z ∧ 2 * z < b + 1 →
      roundReal r z = if r = .towardZero then b / 2 else (b + 1) / 2 := by
    intro z hz
    have hb' : (0 : ℝ) ≤ b := by exact_mod_cast hb
    have hz0 : 0 ≤ z := by linarith
    have hfloor : ⌊z⌋ = b / 2 := by
      have h1 : ((2 * (b / 2) : ℤ) : ℝ) ≤ b := by exact_mod_cast (by omega : 2 * (b / 2) ≤ b)
      have h2 : (b : ℝ) + 1 ≤ ((2 * (b / 2) + 2 : ℤ) : ℝ) := by exact_mod_cast (by omega : b + 1 ≤ 2 * (b / 2) + 2)
      push_cast at h1 h2
      rw [Int.floor_eq_iff]
      constructor <;> linarith
    cases r with
    | nearestAway =>
      have h1 : ((2 * ((b + 1) / 2) : ℤ) : ℝ) ≤ ((b + 1 : ℤ) : ℝ) := by exact_mod_cast (by omega : 2 * ((b + 1) / 2) ≤ b + 1)
      have h2 : ((b + 1 + 1 : ℤ) : ℝ) ≤ ((2 * ((b + 1) / 2) + 2 : ℤ) : ℝ) := by
        exact_mod_cast (by omega : b + 1 + 1 ≤ 2 * ((b + 1) / 2) + 2)
      push_cast at h1 h2
      simp only [roundReal, hz0, if_true, reduceCtorEq, if_false]
      rw [Int.floor_eq_iff]
      constructor <;> linarith
    | towardZero => simp only [roundReal, hz0, if_true, hfloor]
    | nearestEven =>
      simp only [roundReal, hfloor, reduceCtorEq, if_false]
      rcases Int.even_or_odd' b with ⟨c, rfl | rfl⟩
      · rw [if_pos] <;> push_cast at hz ⊢
        · omega
        · have : (2 * c) / 2 = c := by omega
          rw [this]; linarith
      · have e : (2 * c + 1) / 2 = c := by omega
        rw [if_neg, if_pos] <;> push_cast at hz ⊢
        · omega
        · rw [e]; linarith
        · rw [e]; linarith
  rw [key x hx, key y hy]

/-- `roundRat` is `RoundS` of the real number. -/
theorem roundRat_eq (r : SampleRound) {x : ℚ} (h : 0 ≤ x) : (roundRat r x : ℤ) = roundReal r (x : ℝ) := by
  rw [roundRat, ← roundReal_div r _ _ x.pos]
  have h1 : ((x.num.toNat : ℕ) : ℝ) = ((x.num : ℤ) : ℝ) := by
    exact_mod_cast Int.toNat_of_nonneg (Rat.num_nonneg.mpr h)
  rw [h1]
  congr 1
  exact_mod_cast (Rat.num_div_den x)

/-- The sine where twice it is a whole number (40_synthesizer.md R88). -/
theorem sin_of_twiceSine {m q t : ℕ} (ht : twiceSine m q = some t) : Real.sin (Real.pi * m / q) = t / 2 := by
  unfold twiceSine at ht
  split_ifs at ht with h0 h1 h2 <;> simp only [Option.some.injEq] at ht <;> subst ht
  · simp [h0]
  · have hm : (m : ℝ) ≠ 0 := by exact_mod_cast h0
    rw [show (q : ℝ) = 6 * m by exact_mod_cast h1.symm, show Real.pi * m / (6 * m) = Real.pi / 6 by field_simp,
      Real.sin_pi_div_six]
    norm_num
  · have hm : (m : ℝ) ≠ 0 := by exact_mod_cast h0
    rw [show (q : ℝ) = 2 * m by exact_mod_cast h2.symm, show Real.pi * m / (2 * m) = Real.pi / 2 by field_simp,
      Real.sin_pi_div_two]
    norm_num

theorem mul_sineLower_nonneg (a n m q : ℕ) : (0 : ℚ) ≤ a * sineLower n m q :=
  mul_nonneg (by positivity) (le_max_left _ _)

theorem sin_nonneg_of_enclosure {m q : ℕ} (h : 2 * m < q) : 0 ≤ Real.sin (Real.pi * m / q) :=
  (by exact_mod_cast le_max_left _ _ : (0 : ℝ) ≤ sineLower 16 m q).trans (sine_enclosure 16 m q (by norm_num) h).1

/-- Where the two bounds round alike, the exact value rounds so too. -/
theorem roundRat_lower_of_agree (r : SampleRound) {a m q : ℕ} (h : 2 * m < q)
    (hagree : roundRat r (a * sineLower 16 m q) = roundRat r (a * sineUpper 16 m q)) :
    (roundRat r (a * sineLower 16 m q) : ℤ) = roundReal r (a * Real.sin (Real.pi * m / q)) := by
  obtain ⟨hl, hu, -⟩ := sine_enclosure 16 m q (by norm_num) h
  have ha : (0 : ℝ) ≤ a := by positivity
  have hs0 := sin_nonneg_of_enclosure h
  have h1 := roundReal_mono_of_nonneg r (by exact_mod_cast mul_sineLower_nonneg a 16 m q : (0 : ℝ) ≤ a * sineLower 16 m q)
    (mul_le_mul_of_nonneg_left hl ha)
  have h2 := roundReal_mono_of_nonneg r (mul_nonneg ha hs0) (mul_le_mul_of_nonneg_left hu ha)
  have e1 := roundRat_eq r (mul_sineLower_nonneg a 16 m q)
  have e2 := roundRat_eq r (mul_nonneg (by positivity) (by exact_mod_cast hs0.trans hu) :
    (0 : ℚ) ≤ a * sineUpper 16 m q)
  push_cast at e1 e2
  rw [← e1] at h1
  rw [← e2, ← hagree] at h2
  exact le_antisymm h1 h2

/-- At `enoughTerms` the lower bound of twice a sample value is closer to it than any integer is. -/
theorem two_mul_lower_close {a m q : ℕ} (ha : a ≤ 32768) (h : 2 * m < q) :
    (2 * (a * Real.sin (Real.pi * m / q)) - 2 * (a * sineLower (enoughTerms q) m q)) * 2 ^ (68 * q) < 1 := by
  obtain ⟨hl, -, hclose⟩ := sine_enclosure (enoughTerms q) m q (by unfold enoughTerms; omega) h
  have h32 : (a : ℝ) ≤ 32768 := by exact_mod_cast ha
  have hp : (0 : ℝ) < 2 ^ (68 * q) := by positivity
  have h4 : (4 : ℝ) ^ enoughTerms q = 2 ^ (68 * q) * 2 ^ 20 := by
    rw [show (4 : ℝ) = 2 ^ 2 by norm_num, ← pow_mul, ← pow_add]
    congr 1
    unfold enoughTerms
    ring
  calc (2 * (a * Real.sin (Real.pi * m / q)) - 2 * (a * sineLower (enoughTerms q) m q)) * 2 ^ (68 * q)
      = 2 * a * (Real.sin (Real.pi * m / q) - sineLower (enoughTerms q) m q) * 2 ^ (68 * q) := by ring
    _ ≤ 2 ^ 16 * (4 / 4 ^ enoughTerms q) * 2 ^ (68 * q) :=
        mul_le_mul_of_nonneg_right
          (mul_le_mul (by norm_num; linarith) hclose (sub_nonneg.mpr hl) (by norm_num)) hp.le
    _ = 1 / 4 := by rw [h4]; field_simp; norm_num
    _ < 1 := by norm_num

/-- Where the sine is not rational, the lower bound at `enoughTerms` rounds as the exact value does. -/
theorem roundReal_lower_enough (r : SampleRound) {a m q : ℕ} (ha : a ≤ 32768) (h : 2 * m < q)
    (ht : twiceSine m q = none) :
    roundReal r (a * (sineLower (enoughTerms q) m q : ℝ)) = roundReal r (a * Real.sin (Real.pi * m / q)) := by
  rcases Nat.eq_zero_or_pos a with rfl | ha0
  · simp
  have hwidth := two_mul_lower_close ha h
  have ha' : (0 : ℝ) ≤ a := by positivity
  have hxy := mul_le_mul_of_nonneg_left (sine_enclosure (enoughTerms q) m q (by unfold enoughTerms; omega) h).1 ha'
  have hy0 := mul_nonneg ha' (sin_nonneg_of_enclosure h)
  have hya : a * Real.sin (Real.pi * m / q) ≤ a := mul_le_of_le_one_right ha' (Real.sin_le_one _)
  have hfar := fun b => two_mul_sin_far (b := b) h ht ha0 ha
  generalize a * Real.sin (Real.pi * m / q) = y at *
  generalize a * (sineLower (enoughTerms q) m q : ℝ) = x at *
  have hb0 : 0 ≤ ⌊2 * y⌋ := Int.floor_nonneg.mpr (by linarith)
  have hb1 : ⌊2 * y⌋ ≤ 2 * a := by
    have : ((⌊2 * y⌋ : ℤ) : ℝ) ≤ ((2 * a : ℤ) : ℝ) := (Int.floor_le _).trans (by push_cast; linarith)
    exact_mod_cast this
  have hfar := hfar _ hb0 hb1
  rw [abs_of_nonneg (sub_nonneg.mpr (Int.floor_le _))] at hfar
  have hp : (0 : ℝ) < 2 ^ (68 * q) := by positivity
  have hup := Int.lt_floor_add_one (2 * y)
  exact roundReal_eq_of_between r hb0 ⟨by nlinarith, by linarith⟩ ⟨by nlinarith, hup⟩

/-- The magnitude of a sample is the rounding of the exact real value, for every amplitude of 16 bits and every angle
(40_synthesizer.md R84, R85, R88). -/
theorem sampleMagnitude_eq_roundReal (r : SampleRound) {a m q : ℕ} (ha : a ≤ 32768) (h : 2 * m ≤ q) :
    (sampleMagnitude r a m q : ℤ) = roundReal r (a * Real.sin (Real.pi * m / q)) := by
  unfold sampleMagnitude
  cases ht : twiceSine m q with
  | some t =>
    rw [sin_of_twiceSine ht, ← roundReal_div r _ _ (by norm_num)]
    congr 1
    push_cast
    ring
  | none =>
    have hlt : 2 * m < q := by
      unfold twiceSine at ht
      split_ifs at ht
      omega
    simp only
    split_ifs with hagree
    · exact roundRat_lower_of_agree r hlt hagree
    · rw [roundRat_eq r (mul_sineLower_nonneg _ _ _ _)]
      push_cast
      exact roundReal_lower_enough r ha hlt ht

/-- The folded angle is in the first quarter turn. -/
theorem foldAngle_le {p q : ℕ} (h : p < q) : 2 * (foldAngle p q).2 ≤ q := by
  unfold foldAngle
  simp only
  split_ifs <;> omega

/-- The sine of `p / q` of a turn is that of the folded angle, with its sign. -/
theorem sin_foldAngle {p q : ℕ} (h : p < q) :
    Real.sin (2 * Real.pi * (p / q)) =
      (if (foldAngle p q).1 then -1 else 1) * Real.sin (Real.pi * (foldAngle p q).2 / q) := by
  have hq : (0 : ℝ) < q := by exact_mod_cast (by omega : 0 < q)
  have mirror : ∀ k : ℕ, k ≤ q → Real.sin (Real.pi * (q - k : ℕ) / q) = Real.sin (Real.pi * k / q) := by
    intro k hk
    rw [← Real.sin_pi_sub (Real.pi * k / q), Nat.cast_sub hk]
    congr 1
    field_simp
  unfold foldAngle
  simp only [decide_eq_true_eq]
  by_cases h1 : q ≤ 2 * p
  · have e1 : 2 * Real.pi * (p / q) = Real.pi * ((2 * p - q : ℕ) : ℝ) / q + Real.pi := by
      rw [Nat.cast_sub h1]; push_cast; field_simp; ring
    simp only [h1, if_true]
    rw [e1, Real.sin_add_pi, neg_one_mul]
    split_ifs
    · rw [mirror _ (by omega)]
    · rfl
  · have e1 : 2 * Real.pi * (p / q) = Real.pi * ((2 * p : ℕ) : ℝ) / q := by push_cast; field_simp
    simp only [h1, if_false]
    rw [e1, one_mul]
    split_ifs
    · rw [mirror _ (by omega)]
    · rfl

/-- The rounded sine is the rounding of the exact real value, for every amplitude of 16 bits (40_synthesizer.md R84,
R85). -/
theorem roundedSine_eq_roundReal (r : SampleRound) {a : ℤ} (ha : a.natAbs ≤ 32768) {p q : ℕ} (h : p < q) :
    roundedSine r a p q = roundReal r (a * Real.sin (2 * Real.pi * (p / q))) := by
  unfold roundedSine
  rw [sampleMagnitude_eq_roundReal r ha (foldAngle_le h), sin_foldAngle h]
  generalize Real.sin (Real.pi * (foldAngle p q).2 / q) = x
  generalize (foldAngle p q).1 = b
  rcases lt_or_ge a 0 with ha | ha
  · rw [show ((a.natAbs : ℕ) : ℝ) = -(a : ℝ) by rw [Nat.cast_natAbs, abs_of_neg ha]; push_cast; rfl]
    cases b
    · simp [ha, ← roundReal_neg]
    · simp [ha]
  · rw [show ((a.natAbs : ℕ) : ℝ) = (a : ℝ) by rw [Nat.cast_natAbs, abs_of_nonneg ha]]
    cases b
    · simp [not_lt.mpr ha]
    · simp [not_lt.mpr ha, ← roundReal_neg]

end Sys2Proof.Laws
end

