-- ==== Sys2Proof/Tests/Slice0.lean ====
section
/-!
SUPPORT. The model's own tests. Expected results come from the spec: its encodings (30_encoding.md), its vectors and
programs (95_test_vectors.md), cited at each test. After them one witness for each statement that has hypotheses.
-/

namespace Sys2Proof.Tests

open Sys2Proof.Machine Sys2Proof.Safety

/-! ## WellFormed refuses -/

/-- Codes 0x01 and 0x02 are commands, not reserved codes (30_encoding.md R70). -/
theorem test_wellFormed_refuses_cmdReserved :
    ¬ (Instr.cmdReserved 0x01#8).WellFormed ∧ ¬ (Instr.cmdReserved 0x02#8).WellFormed := by decide

/-- Slots 0 to 10 are symbols (30_encoding.md R62). -/
theorem test_wellFormed_refuses_slotUnused :
    ¬ (Instr.slotUnused 0#4).WellFormed ∧ ¬ (Instr.slotUnused 10#4).WellFormed := by decide

/-! ## Words written out from the encodings -/

/-- R70. -/
theorem test_decode_commands :
    decode { fmt := .cmd, bits := 0b00000001#80 } = .ok .transmit ∧
    decode { fmt := .cmd, bits := 0b00000010#80 } = .ok .abort ∧
    decode { fmt := .cmd, bits := 0b00000000#80 } = .ok (.cmdReserved 0x00#8) ∧
    decode { fmt := .cmd, bits := 0b00000011#80 } = .ok (.cmdReserved 0x03#8) ∧
    decode { fmt := .cmd, bits := 0xABCD01FF#80 } = .ok (.cmdReserved 0xFF#8) := by decide

/-- Program P1's first and fifth writes and its reads (R72, R74). -/
theorem test_decode_wr_rd :
    decode { fmt := .write, bits := 0x00001F4002#80 } = .ok (.wr .sampleRate 0x00001F40#32) ∧
    decode { fmt := .write, bits := 0x000000FF05#80 } = .ok (.wr .ampOn 0x000000FF#32) ∧
    decode { fmt := .write, bits := 0x0000000100#80 } = .ok (.wr .cmd 1#32) ∧
    decode { fmt := .read, bits := 0x1#80 } = .ok (.rd .status) ∧
    decode { fmt := .read, bits := 0xB#80 } = .ok (.rd .symIdx) ∧
    decode { fmt := .read, bits := 0xF#80 } = .ok (.rd (.reserved 3#2)) := by decide

/-- The indices of R72, as reads. -/
theorem test_decode_register_reads :
    decode { fmt := .regIdx, bits := 0x0#80 } = .ok (.regCmd .rd) ∧
    decode { fmt := .regIdx, bits := 0x1#80 } = .ok (.regStatus .rd) ∧
    decode { fmt := .regIdx, bits := 0x2#80 } = .ok (.regSampleRate .rd) ∧
    decode { fmt := .regIdx, bits := 0x3#80 } = .ok (.regFreqOn .rd) ∧
    decode { fmt := .regIdx, bits := 0x4#80 } = .ok (.regFreqOff .rd) ∧
    decode { fmt := .regIdx, bits := 0x5#80 } = .ok (.regAmpOn .rd) ∧
    decode { fmt := .regIdx, bits := 0x6#80 } = .ok (.regAmpOff .rd) ∧
    decode { fmt := .regIdx, bits := 0x7#80 } = .ok (.regSymDur .rd) ∧
    decode { fmt := .regIdx, bits := 0x8#80 } = .ok (.regGap .rd) ∧
    decode { fmt := .regIdx, bits := 0x9#80 } = .ok (.regMsgLen .rd) ∧
    decode { fmt := .regIdx, bits := 0xA#80 } = .ok (.regByteIdx .rd) ∧
    decode { fmt := .regIdx, bits := 0xB#80 } = .ok (.regSymIdx .rd) ∧
    decode { fmt := .regIdx, bits := 0xC#80 } = .ok (.regReserved 0#2 .rd) ∧
    decode { fmt := .regIdx, bits := 0xF#80 } = .ok (.regReserved 3#2 .rd) := by decide

/-- The direction in bit 40 and the value in bits 39:8. -/
theorem test_decode_register_writes :
    decode { fmt := .regIdx, bits := 0x1000F424003#80 } = .ok (.regFreqOn (.wr 1000000#32)) ∧
    decode { fmt := .regIdx, bits := 0x1FFFFFFFF0A#80 } = .ok (.regByteIdx (.wr 0xFFFFFFFF#32)) ∧
    decode { fmt := .regIdx, bits := 0x1000000000C#80 } = .ok (.regReserved 0#2 (.wr 0#32)) := by decide

/-- Level words of vectors V50 to V52 and V55 (R61). -/
theorem test_decode_frame :
    decode { fmt := .frame11, bits := 0b10000000000#80 } = .ok (.frame 0x00#8) ∧
    decode { fmt := .frame11, bits := 0b11111111100#80 } = .ok (.frame 0xFF#8) ∧
    decode { fmt := .frame11, bits := 0b10101010100#80 } = .ok (.frame 0x55#8) ∧
    decode { fmt := .frame11, bits := 0b11000000000#80 } = .ok (.frame 0x80#8) := by decide

/-- The table of R62. -/
theorem test_decode_slot :
    decode { fmt := .slot, bits := 0b0000#80 } = .ok .start ∧
    decode { fmt := .slot, bits := 0b0001#80 } = .ok .bit0 ∧
    decode { fmt := .slot, bits := 0b0010#80 } = .ok .bit1 ∧
    decode { fmt := .slot, bits := 0b0011#80 } = .ok .bit2 ∧
    decode { fmt := .slot, bits := 0b0100#80 } = .ok .bit3 ∧
    decode { fmt := .slot, bits := 0b0101#80 } = .ok .bit4 ∧
    decode { fmt := .slot, bits := 0b0110#80 } = .ok .bit5 ∧
    decode { fmt := .slot, bits := 0b0111#80 } = .ok .bit6 ∧
    decode { fmt := .slot, bits := 0b1000#80 } = .ok .bit7 ∧
    decode { fmt := .slot, bits := 0b1001#80 } = .ok .stop0 ∧
    decode { fmt := .slot, bits := 0b1010#80 } = .ok .stop1 ∧
    decode { fmt := .slot, bits := 0b1011#80 } = .ok (.slotUnused 11#4) ∧
    decode { fmt := .slot, bits := 0b1111#80 } = .ok (.slotUnused 15#4) := by decide

/-- Vector V62 as a record `{F, A, D}` (R64): 2000000, 100, 500. -/
theorem test_decode_toneReq :
    decode { fmt := .toneReq, bits := 0x001E84800064000001F4#80 } = .ok (.synth 2000000#32 100#16 500#32) := by decide

/-- Words that are no operation are rejected by name (R71 (d); a bit outside the fields). -/
theorem test_decode_rejects :
    decode { fmt := .frame11, bits := 0b00101010100#80 } = .error .notAFrameWord ∧
    decode { fmt := .frame11, bits := 0b10101010110#80 } = .error .notAFrameWord ∧
    decode { fmt := .frame11, bits := 0x800#80 } = .error .bitsOutsideFormat ∧
    decode { fmt := .cmd, bits := 0x100000001#80 } = .error .bitsOutsideFormat ∧
    decode { fmt := .write, bits := 0x12#80 } = .error .bitsOutsideFormat ∧
    decode { fmt := .regIdx, bits := 0x102#80 } = .error .bitsOutsideFormat ∧
    decode { fmt := .slot, bits := 0x10#80 } = .error .bitsOutsideFormat ∧
    decode { fmt := .noWord, bits := 0#80 } = .error .noEncoding := by decide

/-- Words as spec/opcode_table.json numbers them: TRANSMIT, REG_GAP, FRAME of 0x41 and the SYNTH of V60. -/
theorem test_tableWord :
    decodeTableWord 8 1 = some .transmit ∧ decodeTableWord 8 8 = some (.regGap .rd) ∧
    decodeTableWord 16 0x504 = some (.frame 0x41#8) ∧
    decodeTableWord 80 0x000F424000FF000186A0 = some (.synth 1000000#32 255#16 100000#32) ∧
    decodeTableWord 0 0 = none := by decide

/-! ## Sample values (95_test_vectors.md section 2.2) -/

/-- The integer value of a sample. -/
def sampleInt (r : SampleRound) (f : Word) (a : Sample) (n : Count) (fs : Word) : Int :=
  (sampleFn { Config.Params.default with sampleRound := r } f a n fs).toInt

/-- V28, the vector that separates the three roundings: 126.5 and -126.5. -/
theorem test_sample_ties :
    sampleInt .nearestAway 1000000 253 1 12000 = 127 ∧ sampleInt .nearestAway 1000000 253 7 12000 = -127 ∧
    sampleInt .towardZero 1000000 253 1 12000 = 126 ∧ sampleInt .towardZero 1000000 253 7 12000 = -126 ∧
    sampleInt .nearestEven 1000000 253 1 12000 = 126 ∧ sampleInt .nearestEven 1000000 253 7 12000 = -126 := by
  decide +kernel

/-- V34, the one sample the clamp changes. -/
theorem test_sample_clamp :
    sampleInt .nearestAway 2000000 0x8000 1 8000 = -32768 ∧ sampleInt .nearestAway 2000000 0x8000 3 8000 = 32767 := by
  decide +kernel

/-- V20 at 1, 4 and 5; V24 at 2, the closest of its samples to a boundary; V23 under truncation. -/
theorem test_sample_irrational :
    sampleInt .nearestAway 1000000 255 1 8000 = 180 ∧ sampleInt .nearestAway 1000000 255 4 8000 = 0 ∧
    sampleInt .nearestAway 1000000 255 5 8000 = -180 ∧ sampleInt .nearestAway 440000 1000 2 8000 = 637 ∧
    sampleInt .towardZero 1000000 100 1 8000 = 70 := by
  decide +kernel

/-- Program P7's samples 11 and 27, the second 0.00017 away from a boundary. -/
theorem test_sample_close :
    sampleInt .nearestAway 1000000 32767 11 44100 = 32767 ∧ sampleInt .nearestAway 1000000 32767 27 44100 = -21240 := by
  decide +kernel

/-! ## States for one step -/

/-- The next state, if there is one. -/
def nextOf (r : Result) : Option State :=
  match r with
  | .next t => some t
  | .fault _ => none
  | .refused _ => none

/-- The scenario of program P1 with windows of one sample (vector V6). -/
def scenario : State :=
  { State.reset with
    sampleRate := 8000, freqOn := 1000000, freqOff := 1000000, ampOn := 255, symDur := 125, msgLen := 1,
    msg := [(0, 0x41#8)] }

/-- After TRANSMIT: FETCH is enabled. -/
def fetching : State := { scenario with busy := true }

/-- Symbol `i` of the byte 0x41 is being emitted and `n` of its samples are accepted. -/
def emitting (i : Fin 11) (n : Count) : State :=
  { fetching with
    phase := .emitting, symIdx := i, sampleIdx := n, nSym := 1, shreg := 0x41, tone := level 0x41 i,
    treqF := 1000000, treqA := if level 0x41 i then 255 else 0, cursor := i.val + n.toNat,
    sink := List.replicate (i.val + n.toNat) 0, reads := [(0, 0x41#8)] }

/-- The frame is sent and its delay outstanding. -/
def waiting : State :=
  { emitting 10 1 with
    phase := .gapWait, byteIdx := 1, symIdx := 0, gap := 50000, delays := [50000], tone := false }

/-- The frame is sent: FINISH is enabled. -/
def finishing : State := { waiting with phase := .idle }

/-! ## Single steps -/

/-- V92 and V94: an amplitude is stored in 16 bits and read zero-extended; STATUS is read-only. -/
theorem test_registers :
    (nextOf (exec (.wr .ampOn 0xFFFFFF9C#32) State.reset)).map (readReg .ampOn) = some 0x0000FF9C#32 ∧
    (nextOf (exec (.regStatus (.wr 0xFFFFFFFF#32)) State.reset)) = some State.reset ∧
    (nextOf (exec (.rd .ampOn) scenario)).map State.rdOut = some (some 255#32) := by decide

/-- V97 and V101. -/
theorem test_transmit :
    (nextOf (exec (.wr .cmd 0xABCD0101#32) State.reset)).map statusWord = some 0x00000001#32 ∧
    nextOf (exec .transmit fetching) = some fetching := by decide

/-- V98; ABORT while a symbol is emitted shows in bit 9. -/
theorem test_abort :
    nextOf (exec .abort State.reset) = some State.reset ∧
    (nextOf (exec .abort (emitting 0 0))).map statusWord = some 0x311#32 := by decide

/-- The trace of section 2.7: `STATUS` = 0x111 after FETCH, 0x021 after NEXTSYM to bit 7, 0x121 and 0x031 later. -/
theorem test_status_of_symbols :
    statusWord (emitting 0 0) = 0x111#32 ∧ statusWord (emitting 1 0) = 0x021#32 ∧
    statusWord (emitting 2 0) = 0x121#32 ∧ statusWord (emitting 10 0) = 0x031#32 ∧ statusWord waiting = 0x041#32 := by
  decide

/-- R116's example: FETCH of 0x41. -/
theorem test_fetch :
    (nextOf (exec .fetch { fetching with msgIn := [true] })).map (fun t => (t.treqF, t.treqA, statusWord t)) =
      some (1000000#32, 255#16, 0x111#32) ∧
    (nextOf (exec .fetch { fetching with msgIn := [true] })).map (fun t => (t.shreg, t.reads)) =
      some (0x41#8, [(0#32, 0x41#8)]) := by decide

/-- V110 and V120: InvalidArgument at `SAMPLE_RATE` = 0, unless an ABORT is pending. -/
theorem test_fetch_errors :
    (nextOf (exec .fetch { fetching with msgIn := [true], sampleRate := 0 })).map statusWord = some 0x006#32 ∧
    (nextOf (exec .fetch { fetching with sampleRate := 0, abortPending := true })).map
      (fun t => (statusWord t, t.reads)) = some (0x00E#32, []) := by decide

/-- R118's example: the EMIT at position (0, 0, 1) writes 180, bytes 0xB4 0x00. -/
theorem test_emit :
    (nextOf (exec .emit { emitting 0 1 with nSym := 2, sinkIn := [.accept] })).map
      (fun t => (t.sinkBytes.drop 2, t.cursor)) = some ([0xB4#8, 0x00#8], 2) := by decide +kernel

/-- A stall changes nothing the host sees; V115: a failing EMIT at (0, 1) gives 0x00A. -/
theorem test_emit_stall_fail :
    (nextOf (exec .emit { emitting 1 0 with sinkIn := [.stall] })) = some (emitting 1 0) ∧
    (nextOf (exec .emit { emitting 1 0 with sinkIn := [.fail] })).map
      (fun t => (statusWord t, t.symIdx, t.cursor)) = some (0x00A#32, 1, 1) := by decide

/-- R119's example, and the ABORT of R141's example: the symbol not begun is named. -/
theorem test_nextsym :
    (nextOf (exec .nextsym (emitting 0 1))).map (fun t => (t.symIdx, t.sampleIdx, statusWord t)) =
      some (1, 0#64, 0x021#32) ∧
    (nextOf (exec .nextsym { emitting 3 1 with abortPending := true })).map
      (fun t => (t.symIdx, statusWord t, t.cursor)) = some (4, 0x00E#32, 4) := by decide

/-- The trace's ENDFRAME, and P7's: GapWait and a delay request of 50000. -/
theorem test_endframe :
    (nextOf (exec .endframe (emitting 10 1))).map (fun t => (t.byteIdx, t.symIdx, t.sampleIdx, statusWord t)) =
      some (1#32, 0, 1#64, 0x001#32) ∧
    (nextOf (exec .endframe { emitting 10 1 with gap := 50000 })).map (fun t => (statusWord t, t.delays)) =
      some (0x041#32, [50000#32]) := by decide

/-- P7: GAPDONE returns to Idle. FINISH leaves 0x002 and drops a pending ABORT (V121). -/
theorem test_gapdone_finish :
    (nextOf (exec .gapdone { waiting with delayIn := [true] })).map statusWord = some 0x001#32 ∧
    (nextOf (exec .finish { finishing with abortPending := true })).map statusWord = some 0x002#32 := by decide

/-- R117's example: OPEN(2) with 0x41; the same through BIT1; STOP1 at the tone-off parameters. -/
theorem test_open :
    (nextOf (exec .openSym { emitting 2 0 with tone := false })).map (fun t => (t.txState, t.tone, t.treqA)) =
      some (.emittingBit 1, true, 255#16) ∧
    (nextOf (exec .bit1 (emitting 0 1))).map (fun t => (t.txState, t.tone)) = some (.emittingBit 1, true) ∧
    (nextOf (exec .stop1 (emitting 0 1))).map (fun t => (t.txState, t.treqA)) = some (.emittingStop 1, 0#16) := by decide

/-- V54, V61 and V6; V12: SYNTH at rate 0. -/
theorem test_units :
    (nextOf (exec (.frame 0x41#8) State.reset)).map State.unitOut = some (some (.symbols
      [.start, .dataBit false, .dataBit true, .dataBit false, .dataBit false, .dataBit false, .dataBit false,
       .dataBit false, .dataBit true, .stop, .stop])) ∧
    (nextOf (exec (.map false) scenario)).map State.unitOut = some (some (.tone ⟨1000000#32, 0#16, 125#32⟩)) ∧
    (nextOf (exec (.synth 1000000#32 255#16 125#32) scenario)).map State.nSym = some 1#64 ∧
    (nextOf (exec (.synth 1000000#32 255#16 100000#32) State.reset)).map State.err = some .invalidArgument := by decide

/-- A step takes the first port event; the reset input clears the block (R190). -/
theorem test_step :
    nextOf (step (State.reset.withFetchWord 8 1)) = nextOf (exec .transmit State.reset) ∧
    (nextOf (step { emitting 3 0 with port := [.resetLine] })).map (fun t => (statusWord t, t.sampleRate, t.cursor)) =
      some (0x000#32, 0#32, 0) ∧
    nextOf (step State.reset) = some State.reset := by decide

/-! ## Witnesses: for each statement with hypotheses, a state and operands that meet them all -/

theorem witness_ResetInputResetsTheBlockAlone :
    ({ emitting 3 0 with port := [.resetLine, .idle] } : State).port = .resetLine :: [.idle] := by decide

theorem witness_TransmitStartsOnlyWhenIdle :
    scenario.busy = false ∧ nextOf (exec .transmit scenario) = some fetching ∧ fetching.busy = true := by decide

theorem witness_AbortLatchesOnlyWhileBusy :
    (fetching.params.hasAbort = true ∧ fetching.busy = true) ∧ scenario.busy = false ∧
    ({ fetching with params := { Config.Params.default with hasAbort := false } } : State).params.hasAbort = false := by
  decide

theorem witness_CommandCodesSelectTheCommand :
    (0xABCD0101#32).extractLsb' 0 8 = 0x01#8 ∧ (0x00000002#32).extractLsb' 0 8 = 0x02#8 ∧
    ((0xFFFFFF02#32).extractLsb' 0 8 = 0x02#8 ∧
      ({ fetching with params := { Config.Params.default with hasAbort := false } } : State).params.hasAbort = false) ∧
    ((0x00000000#32).extractLsb' 0 8 ≠ 0x01#8 ∧ (0x00000000#32).extractLsb' 0 8 ≠ 0x02#8) ∧
    ((0x00000103#32).extractLsb' 0 8 ≠ 0x01#8 ∧ (0x00000103#32).extractLsb' 0 8 ≠ 0x02#8) := by decide

theorem witness_WrStoresConfigurationOnlyWhileIdle :
    scenario.busy = false ∧ fetching.busy = true ∧
    Reg.sampleRate ∈ [Reg.sampleRate, .freqOn, .freqOff, .ampOn, .ampOff, .symDur, .gap, .msgLen] ∧
    Reg.msgLen ∈ [Reg.sampleRate, .freqOn, .freqOff, .ampOn, .ampOff, .symDur, .gap, .msgLen] := by decide

theorem witness_RegisterRowWritesStoreTheirRegister :
    scenario.busy = false ∧ fetching.busy = true ∧
    Instr.regMsgLen (.wr 5#32) ∈
      [Instr.regSampleRate (.wr 5#32), .regFreqOn (.wr 5#32), .regFreqOff (.wr 5#32), .regAmpOn (.wr 5#32),
        .regAmpOff (.wr 5#32), .regSymDur (.wr 5#32), .regGap (.wr 5#32), .regMsgLen (.wr 5#32)] := by decide

theorem witness_StateFollowsTheSymbolIndex :
    fetching.phase = .idle ∧ waiting.phase = .gapWait ∧
    ((emitting 0 0).phase = .emitting ∧ (emitting 0 0).symIdx.val = 0) ∧
    ((emitting 1 0).symIdx.val = (0 : Fin 8).val + 1 ∧ (emitting 8 0).symIdx.val = (7 : Fin 8).val + 1) ∧
    ((emitting 9 0).symIdx.val = (0 : Fin 2).val + 9 ∧ (emitting 10 0).symIdx.val = (1 : Fin 2).val + 9) := by decide

theorem witness_FrameWordIsTheLineCode :
    (1 ≤ (1 : Fin 11).val ∧ (1 : Fin 11).val ≤ 8) ∧ (1 ≤ (8 : Fin 11).val ∧ (8 : Fin 11).val ≤ 8) ∧
    frameWord 0x41#8 = frameWord 0x41#8 := by decide

/-- The boundaries of the contract: rate 1 and duration 0 are legal, rate 0 and duration -1 are not. -/
theorem witness_legal_arguments :
    LegalArguments { scenario with sampleRate := 1, symDur := 0 } ∧
    ¬ LegalArguments { scenario with sampleRate := 0 } ∧ ¬ LegalArguments { scenario with symDur := 0xFFFFFFFF } := by
  unfold LegalArguments
  decide

theorem witness_StartOpensAtToneOn :
    LegalArguments (emitting 0 0) ∧ ¬ LegalArguments { emitting 0 0 with sampleRate := 0 } := by
  unfold LegalArguments
  decide

theorem witness_BitOpensAtItsBitLevel :
    LegalArguments (emitting 1 0) ∧ ¬ LegalArguments { emitting 1 0 with symDur := 0xFFFFFFFF } := by
  unfold LegalArguments
  decide

theorem witness_StopOpensAtToneOff :
    LegalArguments (emitting 9 0) ∧ ¬ LegalArguments { emitting 9 0 with sampleRate := 0x80000000 } := by
  unfold LegalArguments
  decide

theorem witness_UnusedSlotIsStuck : 11 ≤ (11#4).toNat ∧ 11 ≤ (15#4).toNat := by decide

theorem witness_SynthChecksThenCounts :
    (0 < ({ scenario with sampleRate := 1 } : State).sampleRate.toInt ∧ 0 ≤ (0#32).toInt) ∧
    (({ scenario with sampleRate := 0 } : State).sampleRate.toInt ≤ 0 ∨ (0#32).toInt < 0) ∧
    (scenario.sampleRate.toInt ≤ 0 ∨ (0xFFFFFFFF#32).toInt < 0) := by decide

theorem witness_SampleCountIsTheExactQuotient :
    (0 < (1#32).toInt ∧ 0 ≤ (0#32).toInt) ∧ (0 < (0x7FFFFFFF#32).toInt ∧ 0 ≤ (0x7FFFFFFF#32).toInt) := by decide

theorem witness_SilenceIsExactlyZero :
    0 < (8000#32).toInt ∧ ((0#32 : Word) = 0 ∨ (255#16 : Sample) = 0) ∧ ((1000000#32 : Word) = 0 ∨ (0#16 : Sample) = 0) := by
  decide

theorem witness_SampleWithinAmplitude : 0 < (1#32).toInt ∧ 0 < (0x7FFFFFFF#32).toInt := by decide

theorem witness_AliasNegatesTheWindow :
    0 < (8000#32).toInt ∧ Config.Params.default.sampleTol = 0 ∧
    (((1000000#32).toNat + (7000000#32).toNat : Int) = 1000 * (8000#32).toInt ∧ (255#16).toInt ≠ -32768) ∧
    ((8000000#32).toNat : Int) = 1000 * (8000#32).toInt := by decide

theorem witness_SampleIsTheRoundedExactSine : 0 < (44100#32).toInt ∧ Config.Params.default.sampleTol = 0 := by decide

theorem witness_SampleWithinOneOfTheExactSine :
    0 < (44100#32).toInt ∧ Config.Params.default.sampleRound ≠ .towardZero ∧ (0x8001#16).toInt ≠ -32768 ∧
    (0x7FFF#16).toInt ≠ -32768 := by decide

theorem witness_PcmBytesAreLittleEndian : ({ scenario with sink := [180#16, 0x8000#16] } : State).sink[1]? = some 0x8000#16 := by
  decide

theorem witness_MessageByteReadsBack :
    ({ scenario with port := [.msgByte 1 7#8] } : State).port = .msgByte 1 7#8 :: [] ∧ (0 : Nat) ≠ 1 ∧
    Memory.wf scenario.msg = true := by decide

/-- FETCH is enabled, no ABORT is pending and the answer is there: with a listed byte and with none. -/
theorem witness_FetchReadsTheByteAndOpensStart :
    (let s : State := { fetching with msgIn := [true] }
     s.busy = true ∧ s.phase = .idle ∧ s.byteIdx.toNat < s.msgLen.toNat ∧ s.abortPending = false ∧
     s.msgIn = true :: [] ∧ (0 < s.sampleRate.toInt ∧ 0 ≤ s.symDur.toInt) ∧ s.msg.read s.byteIdx.toNat = some 0x41#8) ∧
    ({ fetching with msgIn := [true], msg := [] } : State).msg.read 0 = none := by decide

/-- A wait that is listed and one that may come; both kinds of arguments; the three kinds of port. -/
theorem witness_FetchWaitsForTheByte :
    (let s : State := { fetching with msgIn := [false] }
     s.busy = true ∧ s.phase = .idle ∧ s.byteIdx.toNat < s.msgLen.toNat ∧ s.abortPending = false ∧
     s.msgIn = false :: []) ∧
    fetching.msgIn = [] ∧ LegalArguments fetching ∧ ¬ LegalArguments { fetching with sampleRate := 0 } ∧
    KeepsTurn [] [] ∧ KeepsTurn [.resetLine] [.resetLine] ∧ KeepsTurn [.msgByte 0 0] [.idle, .msgByte 0 0] := by
  unfold LegalArguments
  exact ⟨by decide, by decide, by decide, by decide, Laws.heldPort_keepsTurn _, Laws.heldPort_keepsTurn _,
    Laws.heldPort_keepsTurn _⟩

theorem witness_FetchTakesAPendingAbort :
    let s : State := { fetching with abortPending := true }
    s.busy = true ∧ s.phase = .idle ∧ s.byteIdx.toNat < s.msgLen.toNat ∧ s.abortPending = true := by decide

theorem witness_FetchRaisesInvalidArgument :
    (let s : State := { fetching with msgIn := [true], sampleRate := 0 }
     s.busy = true ∧ s.phase = .idle ∧ s.byteIdx.toNat < s.msgLen.toNat ∧ s.abortPending = false ∧
     s.msgIn = true :: [] ∧ ¬ LegalArguments s ∧ s.msg.read s.byteIdx.toNat = some 0x41#8) ∧
    ({ fetching with msgIn := [true], sampleRate := 0, msg := [] } : State).msg.read 0 = none := by
  unfold LegalArguments
  decide

/-- The clauses at the ends of their ranges: 0, 1 and 8, 9 and 10. -/
theorem witness_OpenFollowsTheSymbolIndex :
    ((emitting 0 0).symIdx.val = 0) ∧
    (1 ≤ (emitting 1 0).symIdx.val ∧ (emitting 1 0).shreg.getLsbD (8 - 1) = false) ∧
    ((emitting 8 0).symIdx.val ≤ 8 ∧ (emitting 8 0).shreg.getLsbD (8 - 8) = true) ∧
    9 ≤ (emitting 9 0).symIdx.val ∧ 9 ≤ (emitting 10 0).symIdx.val ∧
    LegalArguments (emitting 8 0) ∧ ¬ LegalArguments { emitting 8 0 with sampleRate := 0 } := by
  unfold LegalArguments
  decide

theorem witness_EmitFollowsTheSinksAnswer :
    (let s : State := { emitting 0 0 with sinkIn := [.fail] }
     s.busy = true ∧ s.phase = .emitting ∧ s.sampleIdx.toNat < s.nSym.toNat ∧ s.sinkIn = .fail :: []) ∧
    (emitting 0 0).sinkIn = [] := by decide

/-- The symbols opened at the ends of the clauses: 1 and 8 carry bits 7 and 0, 9 and 10 are Stops. -/
theorem witness_NextsymOpensTheNextSymbol :
    (let s := emitting 0 1
     s.busy = true ∧ s.phase = .emitting ∧ s.sampleIdx = s.nSym ∧ (1 : Fin 11).val = s.symIdx.val + 1 ∧
     s.abortPending = false ∧ (0 < s.sampleRate.toInt ∧ 0 ≤ s.symDur.toInt) ∧ s.shreg.getLsbD (8 - 1) = false) ∧
    ((8 : Fin 11).val = (emitting 7 1).symIdx.val + 1 ∧ (emitting 7 1).shreg.getLsbD (8 - 8) = true) ∧
    ((9 : Fin 11).val = (emitting 8 1).symIdx.val + 1 ∧ 9 ≤ (9 : Fin 11).val) ∧
    (10 : Fin 11).val = (emitting 9 1).symIdx.val + 1 := by decide

theorem witness_NextsymTakesAPendingAbort :
    let s : State := { emitting 9 1 with abortPending := true }
    s.busy = true ∧ s.phase = .emitting ∧ s.sampleIdx = s.nSym ∧ (10 : Fin 11).val = s.symIdx.val + 1 ∧
    s.abortPending = true := by decide

theorem witness_EndframeAdvancesTheByte :
    (let s := emitting 10 1
     s.busy = true ∧ s.phase = .emitting ∧ s.sampleIdx = s.nSym ∧ s.symIdx.val = 10 ∧ s.gap = 0) ∧
    ({ emitting 10 1 with gap := 1 } : State).gap ≠ 0 := by decide

theorem witness_GapdoneWaitsForDelayDone :
    (waiting.busy = true ∧ waiting.phase = .gapWait) ∧
    ({ waiting with delayIn := [true] } : State).delayIn = true :: [] ∧
    ({ waiting with delayIn := [false] } : State).delayIn = false :: [] ∧ waiting.delayIn = [] := by decide

theorem witness_FinishEndsOk :
    finishing.busy = true ∧ finishing.phase = .idle ∧ finishing.byteIdx = finishing.msgLen := by decide

theorem witness_StepRowsStopWhereNotEnabled :
    selectStep State.reset ≠ some .fetch ∧ selectStep fetching ≠ some .finish ∧ selectStep (emitting 10 1) ≠ some .nextsym ∧
    selectStep (emitting 9 1) ≠ some .endframe ∧ selectStep (emitting 0 1) ≠ some .emit ∧
    selectStep fetching ≠ some .gapdone := by decide

theorem witness_StepRunsThePresentedWord :
    (let s : State := { scenario with port := [.op (cmdWord 1#8)] }
     s.port = .op (cmdWord 1#8) :: [] ∧ decode (cmdWord 1#8) = .ok .transmit) ∧
    (let w : OpWord := { fmt := .frame11, bits := 0#80 }
     ({ scenario with port := [.op w] } : State).port = .op w :: [] ∧ decode w = .error .notAFrameWord) ∧
    decodeTableWord 8 1 = some .transmit := by decide

theorem witness_StepRunsTheEnabledStep :
    (fetching.port = [] ∧ selectStep fetching = some .fetch) ∧
    (let s : State := { emitting 0 0 with port := [.idle] }
     s.port = .idle :: [] ∧ selectStep s = some .emit) ∧
    (scenario.port = [] ∧ scenario.busy = false) ∧
    ({ scenario with port := [.idle] } : State).port = .idle :: [] := by decide

/-- The states of this file meet the invariants. -/
theorem scenario_inv : Inv scenario := by constructor <;> decide

theorem fetching_inv : Inv fetching := by constructor <;> decide

theorem emitting_start_inv : Inv (emitting 0 0) := by constructor <;> decide

theorem emitting_bit_inv : Inv (emitting 3 1) := by constructor <;> decide

theorem finishing_inv : Inv finishing := by constructor <;> decide

theorem finishing_streamInv : StreamInv finishing := by constructor <;> decide +kernel

theorem emitting_streamInv : StreamInv (emitting 3 0) := by constructor <;> decide +kernel

theorem witness_ExactlyOneStepIsEnabled : Inv (emitting 3 1) ∧ (emitting 3 1).busy = true ∧ Inv scenario ∧
    scenario.busy = false := ⟨emitting_bit_inv, rfl, scenario_inv, rfl⟩

theorem witness_DecodeInvertsEncode :
    (Instr.cmdReserved 0x00#8).WellFormed ∧ (Instr.cmdReserved 0x03#8).WellFormed ∧ (Instr.slotUnused 11#4).WellFormed ∧
    encode (.slotUnused 11#4) = some (slotWord 11#4) ∧ encode (.map true) = none := by decide

theorem witness_DecodedIsWellFormed : decode (slotWord 15#4) = .ok (.slotUnused 15#4) := by decide

/-- An operation of the host, an accepted sample and the reset input. -/
theorem witness_StepKeepsTheInvariants :
    (HostOnly { scenario with port := [.op (cmdWord 1#8)] } ∧ Inv { scenario with port := [.op (cmdWord 1#8)] } ∧
      step { scenario with port := [.op (cmdWord 1#8)] } = .next fetching) ∧
    (HostOnly { emitting 0 0 with sinkIn := [.accept] } ∧ Inv { emitting 0 0 with sinkIn := [.accept] } ∧
      nextOf (step { emitting 0 0 with sinkIn := [.accept] }) = some (emitting 0 1)) := by
  refine ⟨⟨?_, ?_, rfl⟩, ?_, ?_, by decide⟩
  · unfold HostOnly; decide
  · constructor <;> decide
  · unfold HostOnly; decide
  · constructor <;> decide

theorem witness_StepKeepsTheStream :
    HostOnly { emitting 0 0 with sinkIn := [.accept] } ∧ Inv { emitting 0 0 with sinkIn := [.accept] } ∧
    StreamInv { emitting 0 0 with sinkIn := [.accept] } ∧
    nextOf (step { emitting 0 0 with sinkIn := [.accept] }) = some (emitting 0 1) := by
  refine ⟨?_, ?_, ?_, by decide⟩
  · unfold HostOnly; decide
  · constructor <;> decide
  · constructor <;> decide +kernel

theorem witness_FinishedStreamIsTheWholeMessage :
    Inv finishing ∧ StreamInv finishing ∧ ∃ t, exec .finish finishing = .next t ∧ t.stream.length = 11 :=
  ⟨finishing_inv, finishing_streamInv, _, rfl, by decide⟩

/-- Each of the three errors. -/
theorem witness_ErrorEntryKeepsThePosition :
    (let s : State := { fetching with msgIn := [true], sampleRate := 0 }
     HostOnly s ∧ Inv s ∧ s.busy = true ∧ ∃ t, step s = .next t ∧ t.err = .invalidArgument) ∧
    (let s : State := { emitting 3 0 with sinkIn := [.fail] }
     HostOnly s ∧ Inv s ∧ s.busy = true ∧ ∃ t, step s = .next t ∧ t.err = .sinkFailure) ∧
    (let s : State := { emitting 3 1 with abortPending := true }
     HostOnly s ∧ Inv s ∧ s.busy = true ∧ ∃ t, step s = .next t ∧ t.err = .interrupted) := by
  refine ⟨⟨?_, ?_, rfl, _, rfl, by decide⟩, ⟨?_, ?_, rfl, _, rfl, by decide⟩, ⟨?_, ?_, rfl, _, rfl, by decide⟩⟩
  · unfold HostOnly; decide
  · constructor <;> decide
  · unfold HostOnly; decide
  · constructor <;> decide
  · unfold HostOnly; decide
  · constructor <;> decide

/-- The states of the witness above; the counts of the statement at each. -/
theorem witness_ErrorPositionsCountTheSamples :
    (nextOf (step { emitting 3 0 with sinkIn := [.fail] })).map (fun t => (t.err, t.symIdx, t.cursor)) =
      some (.sinkFailure, 3, 3) ∧
    (nextOf (step { emitting 3 1 with abortPending := true })).map (fun t => (t.err, t.symIdx, t.cursor)) =
      some (.interrupted, 4, 4) ∧
    (nextOf (step { fetching with msgIn := [true], sampleRate := 0 })).map (fun t => (t.err, t.symIdx, t.cursor)) =
      some (.invalidArgument, 0, 0) := by decide

/-- A write of the host that is lost, and the step that ends a transmission. -/
theorem witness_ConfigurationConstantWhileBusy :
    (let s : State := { fetching with port := [.op (writeWord .gap 7#32)] }
     HostOnly s ∧ s.busy = true ∧ ∃ t, step s = .next t ∧ t.busy = true) ∧
    (HostOnly finishing ∧ finishing.busy = true ∧ ∃ t, step finishing = .next t ∧ t.busy = false ∧ t.done = true) := by
  refine ⟨⟨?_, rfl, _, rfl, by decide⟩, ?_, rfl, _, rfl, by decide, by decide⟩
  · unfold HostOnly; decide
  · unfold HostOnly; decide

theorem witness_PositionNeverGoesBack :
    (HostOnly (emitting 10 1) ∧ Inv (emitting 10 1) ∧ (emitting 10 1).busy = true ∧
      ∃ t, step (emitting 10 1) = .next t ∧ t.busy = true ∧ t.byteIdx = 1) := by
  refine ⟨?_, ?_, rfl, _, rfl, by decide, by decide⟩
  · unfold HostOnly; decide
  · constructor <;> decide

theorem witness_ParametersNeverChange : nextOf (step (emitting 0 1)) = some (emitting 1 0) := by decide

theorem witness_EmptyMessageEndsOk :
    State.reset.busy = false ∧ State.reset.port = [] ∧ State.reset.msgLen = 0 := by decide

/-- A transmission of one byte with a gap, everything answered at once. -/
theorem witness_TransmissionWritesTheWholeStream :
    let s : State :=
      { scenario with
        gap := 7, sinkIn := List.replicate 11 .accept, msgIn := [true], delayIn := [true] }
    s.busy = false ∧ s.port = [] ∧ LegalArguments s ∧ s.msgLen.toNat = [0x41#8].length ∧
    (∀ i b, [0x41#8][i]? = some b → s.msg.read i = some b) ∧
    s.sinkIn = List.replicate (11 * windowLength s * [0x41#8].length) .accept ++ [] ∧
    s.msgIn = List.replicate [0x41#8].length true ++ [] ∧
    s.delayIn = List.replicate (if s.gap = 0 then 0 else [0x41#8].length) true ++ [] := by
  refine ⟨rfl, rfl, ⟨by decide, by decide⟩, rfl, ?_, by decide, rfl, by decide⟩
  intro i b h
  cases i with
  | zero => simpa [scenario, State.reset, Memory.read] using h
  | succ i => simp at h

/-- A FETCH that waits with an ABORT on its way: the ABORT does not fall inside it. -/
theorem witness_FetchIsNotInterleaved :
    (nextOf (exec .fetch { fetching with msgIn := [false], port := [.op (cmdWord 2#8)] })).map
      (fun t => (t.busy, t.phase, t.port)) = some (true, .idle, [.idle, .op (cmdWord 2#8)]) := by decide

end Sys2Proof.Tests
end

/-! # Proofs: the scope (00_scope.md)

No step changes a parameter of the instance (R4), and a FETCH that waits is not interleaved with host operations (R6). -/

namespace Sys2Proof.Proofs

open Sys2Proof.Machine Sys2Proof.Laws

/-! ## What any operation and any port event can do -/

/-- A word that answers a next state is an operation, and it is that operation's next state. -/
theorem runWord_eq_next {w : OpWord} {s t : State} :
    runWord w s = .next t ↔ ∃ i, decode w = .ok i ∧ exec i s = .next t := by
  unfold runWord
  cases decode w <;> simp

/-- Everything an operation can do when it answers a next state: an access of the host to a register (a command is a
write to `CMD`), a result of a unit issued alone, a symbol opened, or the step selected. -/
theorem exec_cases {i : Instr} {s t : State} (h : exec i s = .next t) :
    (∃ r a, t = accessReg r a s) ∨
    (∃ u, t = { s with unitOut := u }) ∨
    (∃ d u, t = { startWindow d s with unitOut := u }) ∨
    t = raiseError .invalidArgument s ∨
    (∃ k, t = openSymbol k s) ∨
    selectStep s = some i := by
  cases i with
  | transmit => cases h; exact .inl ⟨.cmd, .wr 0x01#32, rfl⟩
  | abort => cases h; exact .inl ⟨.cmd, .wr 0x02#32, rfl⟩
  | cmdReserved => cases h; exact .inl ⟨.status, .wr 0#32, rfl⟩
  | wr r w => cases h; exact .inl ⟨r, .wr w, rfl⟩
  | rd r => cases h; exact .inl ⟨r, .rd, rfl⟩
  | regCmd a | regStatus a | regSampleRate a | regFreqOn a | regFreqOff a | regAmpOn a | regAmpOff a | regSymDur a
  | regGap a | regMsgLen a | regByteIdx a | regSymIdx a | regReserved _ a =>
    cases h; exact .inl ⟨_, a, rfl⟩
  | frame | map => cases h; exact .inr (.inl ⟨_, rfl⟩)
  | synth f a d =>
    simp only [exec, execSynth] at h
    split_ifs at h <;> cases h
    · exact .inr (.inr (.inr (.inl rfl)))
    · exact .inr (.inr (.inl ⟨d, _, rfl⟩))
  | start | bit0 | bit1 | bit2 | bit3 | bit4 | bit5 | bit6 | bit7 | stop0 | stop1 | openSym =>
    cases h; exact .inr (.inr (.inr (.inr (.inl ⟨_, rfl⟩))))
  | slotUnused => cases h
  | fetch | emit | nextsym | endframe | gapdone | finish =>
    exact .inr (.inr (.inr (.inr (.inr (whenEnabled_eq_next.mp h).1))))

/-! ## The parameters of the instance (R4) -/

@[simp] theorem openSymbol_params (k : Fin 11) (s : State) : (openSymbol k s).params = s.params := by
  cases h : badArguments s.symDur s.sampleRate
  · rw [openSymbol_of_legal k h]
  · rw [openSymbol_of_bad k h, raiseError_params]

@[simp] theorem startTransmission_params (s : State) : (startTransmission s).params = s.params := by
  unfold startTransmission
  split_ifs <;> rfl

@[simp] theorem requestAbort_params (s : State) : (requestAbort s).params = s.params := by
  unfold requestAbort
  split_ifs <;> rfl

@[simp] theorem resetBlock_params (s : State) : (resetBlock s).params = s.params := rfl

@[simp] theorem accessReg_params (r : Reg) (a : Access) (s : State) : (accessReg r a s).params = s.params := by
  rcases accessReg_cases r a s with ⟨_, h⟩ | h | h | h | ⟨_, _, _, _, _, _, _, _, _, h⟩ <;> simp [h]

/-- None of the six steps of the transmitter changes a parameter. -/
theorem selected_keeps_params {i : Instr} {s t : State} (hi : selectStep s = some i) (h : exec i s = .next t) :
    t.params = s.params := by
  rcases selected_cases hi h with h | h | h | h | h | h
  · obtain ⟨-, ⟨-, rfl⟩ | ⟨_, _, rfl⟩ | ⟨_, _, _, rfl⟩⟩ := fetch_cases h <;> simp
  · obtain ⟨-, _, _, rfl | rfl | rfl⟩ := emit_cases h <;> simp
  · obtain ⟨-, ⟨-, rfl⟩ | ⟨-, rfl⟩⟩ := nextsym_cases h <;> simp
  · obtain ⟨-, _, _, -, rfl⟩ := endframe_cases h
    rfl
  · obtain ⟨-, _, _, _, -, rfl⟩ := gapdone_cases h
    rfl
  · obtain ⟨-, rfl⟩ := finish_cases h
    rfl

/-- No operation changes a parameter. -/
theorem exec_keeps_params {i : Instr} {s t : State} (h : exec i s = .next t) : t.params = s.params := by
  rcases exec_cases h with ⟨_, _, rfl⟩ | ⟨_, rfl⟩ | ⟨_, _, rfl⟩ | rfl | ⟨_, rfl⟩ | hi
  · simp
  · rfl
  · simp
  · simp
  · simp
  · exact selected_keeps_params hi h

theorem blockStep_keeps_params {s t : State} (h : blockStep s = .next t) : t.params = s.params := by
  rcases blockStep_eq_next.mp h with ⟨_, -, he⟩ | ⟨-, rfl⟩
  · exact exec_keeps_params he
  · rfl

/-- No port event changes a parameter, whatever the operation a word stands for. -/
theorem runEvent_keeps_params {e : PortEvent} {s t : State} (h : runEvent e s = .next t) : t.params = s.params := by
  cases e with
  | idle => exact blockStep_keeps_params h
  | op w =>
    obtain ⟨_, -, he⟩ := runWord_eq_next.mp h
    exact exec_keeps_params he
  | msgByte i b => cases h; rfl
  | resetLine => cases h; simp

/-- Settles O54: the block's own step and every port event keep the parameters. -/
theorem parametersNeverChange : Obligations.ParametersNeverChange := by
  intro s t h
  cases hp : s.port with
  | nil =>
    rw [step_of_port_nil hp] at h
    exact blockStep_keeps_params h
  | cons e rest =>
    rw [step_of_port_cons hp] at h
    have hk := runEvent_keeps_params h
    exact hk

/-! ## A FETCH that waits (R6, R116) -/

/-- A symbol opened is emitted, or the transmission has ended with an error: the block is not busy in Idle. -/
theorem openSymbol_not_busy_idle (k : Fin 11) (s : State) :
    ¬ ((openSymbol k s).busy = true ∧ (openSymbol k s).phase = .idle) := by
  cases h : badArguments s.symDur s.sampleRate
  · simp [openSymbol_of_legal k h]
  · simp [openSymbol_of_bad k h]

/-- With an ABORT pending FETCH raises Interrupted. -/
theorem fetch_of_abortPending {s t : State} (ha : s.abortPending = true) (h : exec .fetch s = .next t) :
    t = raiseError .interrupted s := by
  obtain ⟨-, he⟩ := whenEnabled_eq_next.mp h
  rw [← he, if_pos ha]

/-- A FETCH that leaves the block busy in Idle found no ABORT pending, drew one answer and kept the turn. -/
theorem fetch_waits {s t : State} (h : exec .fetch s = .next t) (hb : t.busy = true) (hp : t.phase = .idle) :
    s.abortPending = false ∧ ∃ l n, t = holdTurn { s with msgIn := l, draws := n } := by
  have ha : s.abortPending = false := by
    by_contra ha
    rw [fetch_of_abortPending (by simpa using ha) h] at hb
    simp at hb
  obtain ⟨-, ⟨ha', -⟩ | hw | ⟨_, _, _, rfl⟩⟩ := fetch_cases h
  · simp [ha] at ha'
  · exact ⟨ha, hw⟩
  · exact absurd ⟨hb, hp⟩ (openSymbol_not_busy_idle _ _)

/-- Which step is selected does not depend on the port. -/
theorem selectStep_of_port (s : State) (p : List PortEvent) : selectStep { s with port := p } = selectStep s := rfl

/-- The block's own step is the one selected. -/
theorem blockStep_of_selected {s : State} {i : Instr} (h : selectStep s = some i) : blockStep s = exec i s := by
  simp [blockStep, h]

/-- With the turn kept, the next step is the one selected, or the reset input. -/
theorem step_of_heldPort {s : State} {i : Instr} {l : List PortEvent} (hs : selectStep s = some i)
    (hl : s.port = heldPort l) :
    (s.port = [] ∧ step s = exec i s) ∨
    (∃ rest, s.port = .idle :: rest ∧ step s = exec i { s with port := rest }) ∨
    (∃ rest, s.port = .resetLine :: rest ∧ step s = .next (resetBlock { s with port := rest })) := by
  cases hp : s.port with
  | nil => exact .inl ⟨rfl, by rw [step_of_port_nil hp, blockStep_of_selected hs]⟩
  | cons e rest =>
    have hstep := step_of_port_cons hp
    rcases heldPort_head (hl.symm.trans hp) with rfl | rfl
    · exact .inr (.inl ⟨rest, rfl, hstep.trans (blockStep_of_selected ((selectStep_of_port s rest).trans hs))⟩)
    · exact .inr (.inr ⟨rest, rfl, hstep⟩)

/-- Settles O58: a FETCH that waits leaves the state selecting FETCH, with the turn kept on the port. -/
theorem fetchIsNotInterleaved : Obligations.FetchIsNotInterleaved := by
  intro s t h hb hp
  obtain ⟨ha, _, _, rfl⟩ := fetch_waits h hb hp
  have hs := selectStep_fetch.mpr (fetch_cases h).1
  exact ⟨hs, ha, rfl, rfl, step_of_heldPort hs rfl⟩

end Sys2Proof.Proofs

/-! # Proofs: the state (10_state.md)

The reset values (R36), `STATUS` and `STATE` (R23, R27), and what every step keeps: the configuration (R19), the order of
the position (R20) and the invariants (R35). -/

namespace Sys2Proof.Proofs

open Sys2Proof.Machine Sys2Proof.Laws Sys2Proof.Safety

/-! ## The reset values (R36) -/

/-- Settles O1: each register is read at its reset value, and `STATUS` is the word of zero fields. -/
theorem resetGivesEveryElementItsValue : Obligations.ResetGivesEveryElementItsValue :=
  ⟨by decide, by decide, by decide, by decide, fun r => by cases r <;> rfl⟩

/-! ## `STATUS` and `STATE` (R23, R27) -/

/-- Settles O10: each field is the part of that name in the word, from the lowest up. -/
theorem statusWordLayout : Obligations.StatusWordLayout := by
  intro s
  refine ⟨?busy, ?done, ?err, ?state, ?tone, ?abort, ?zero, rfl, fun _ => rfl⟩
  case err => exact (extract_above 1 2 _ _).trans ((extract_above 0 2 _ _).trans (extract_low _ _))
  case state =>
    exact (extract_above 3 4 _ _).trans ((extract_above 2 4 _ _).trans ((extract_above 0 4 _ _).trans (extract_low _ _)))
  case zero =>
    exact (extract_above 9 22 _ _).trans ((extract_above 8 22 _ _).trans ((extract_above 6 22 _ _).trans
      ((extract_above 2 22 _ _).trans ((extract_above 1 22 _ _).trans (extract_high _ _)))))
  case busy | done | tone | abort =>
    rw [statusWord]
    simp only [BitVec.getLsbD_append]
    simp

/-- While a symbol is emitted `STATE` is that of the symbol index. -/
theorem txState_of_emitting {s : State} (h : s.phase = .emitting) : s.txState = emittingState s.symIdx := by
  simp [State.txState, h]

theorem emittingState_start {i : Fin 11} (h : i.val = 0) : emittingState i = .emittingStart := by
  simp [emittingState, h]

theorem emittingState_bit {i : Fin 11} {k : Fin 8} (h : i.val = k.val + 1) : emittingState i = .emittingBit k := by
  have hk : k.val + 1 ≤ 8 := k.isLt
  simp [emittingState, h, hk]

theorem emittingState_stop {i : Fin 11} {j : Fin 2} (h : i.val = j.val + 9) : emittingState i = .emittingStop j := by
  simp [emittingState, h]

/-- Settles O11, by the phase and, while a symbol is emitted, the kind of the symbol. -/
theorem stateFollowsTheSymbolIndex : Obligations.StateFollowsTheSymbolIndex := by
  intro s
  refine ⟨fun hp => ?_, fun hp => ?_, fun hp h => ?_, fun hp k h => ?_, fun hp j h => ?_⟩
  · simp [State.txState, hp, TxState.code]
  · simp [State.txState, hp, TxState.code]
  · simp [txState_of_emitting hp, emittingState_start h, TxState.code]
  · simp [txState_of_emitting hp, emittingState_bit h, TxState.code]
  · simp [txState_of_emitting hp, emittingState_stop h, TxState.code]

/-! ## The configuration (R19) -/

/-- The configuration registers together (R11 to R18). -/
def configuration (s : State) : Word × Word × Word × Sample × Sample × Word × Word × Word :=
  (s.sampleRate, s.freqOn, s.freqOff, s.ampOn, s.ampOff, s.symDur, s.gap, s.msgLen)

theorem configuration_eq_iff {s t : State} :
    configuration t = configuration s ↔
      t.sampleRate = s.sampleRate ∧ t.freqOn = s.freqOn ∧ t.freqOff = s.freqOff ∧ t.ampOn = s.ampOn ∧
      t.ampOff = s.ampOff ∧ t.symDur = s.symDur ∧ t.gap = s.gap ∧ t.msgLen = s.msgLen := by
  simp [configuration]

@[simp] theorem openSymbol_configuration (k : Fin 11) (s : State) :
    configuration (openSymbol k s) = configuration s := by
  cases h : badArguments s.symDur s.sampleRate
  · rw [openSymbol_of_legal k h]
    rfl
  · rw [openSymbol_of_bad k h]
    rfl

/-- While `BUSY` = 1 an access changes only the value returned and the pending ABORT, which needs `HAS_ABORT`. -/
theorem accessReg_cases_of_busy {s : State} (r : Reg) (a : Access) (hb : s.busy = true) :
    (∃ v, accessReg r a s = { s with rdOut := v }) ∨
    (s.params.hasAbort = true ∧ accessReg r a s = { s with abortPending := true }) := by
  rcases accessReg_cases r a s with ⟨v, h⟩ | h | h | h | ⟨hb', -⟩
  · exact .inl ⟨_, h⟩
  · exact .inl ⟨s.rdOut, by rw [h, startTransmission, if_pos hb]⟩
  · rw [h, requestAbort]
    split_ifs with ha
    · exact .inr ⟨(Bool.and_eq_true_iff.mp ha).1, rfl⟩
    · exact .inl ⟨s.rdOut, rfl⟩
  · exact .inl ⟨s.rdOut, h⟩
  · simp [hb] at hb'

/-- None of the six steps of the transmitter changes the configuration. -/
theorem selected_keeps_configuration {i : Instr} {s t : State} (hi : selectStep s = some i)
    (h : exec i s = .next t) : configuration t = configuration s := by
  rcases selected_cases hi h with h | h | h | h | h | h
  · obtain ⟨-, ⟨-, rfl⟩ | ⟨_, _, rfl⟩ | ⟨_, _, _, rfl⟩⟩ := fetch_cases h
    · rfl
    · rfl
    · exact openSymbol_configuration 0 _
  · obtain ⟨-, _, _, rfl | rfl | rfl⟩ := emit_cases h <;> rfl
  · obtain ⟨-, ⟨-, rfl⟩ | ⟨-, rfl⟩⟩ := nextsym_cases h
    · rfl
    · exact openSymbol_configuration _ _
  · obtain ⟨-, _, _, -, rfl⟩ := endframe_cases h
    rfl
  · obtain ⟨-, _, _, _, -, rfl⟩ := gapdone_cases h
    rfl
  · obtain ⟨-, rfl⟩ := finish_cases h
    rfl

/-- Settles O52: a write while `BUSY` = 1 is lost, the six steps write no configuration, and after the reset input
neither `BUSY` nor `DONE` is 1. -/
theorem configurationConstantWhileBusy : Obligations.ConfigurationConstantWhileBusy := by
  intro s t hp hb h hend
  rw [← configuration_eq_iff]
  obtain ⟨rest, -, ⟨r, a, rfl⟩ | ⟨i, b, rfl⟩ | rfl | ⟨hidle, -⟩ | ⟨i, hi, he⟩⟩ := step_cases hp h
  · rcases accessReg_cases_of_busy (s := { s with port := rest }) r a hb with ⟨v, h'⟩ | ⟨-, h'⟩ <;> rw [h'] <;> rfl
  · rfl
  · simp [resetBlock] at hend
  · simp [hb] at hidle
  · have hkeep := selected_keeps_configuration hi he
    exact hkeep

/-! ## The invariants: rules by the kind of state (R35) -/

/-- In a state whose tone is off and which holds no pending ABORT, with no transmission in progress, the invariants ask
for the index of an Ok ending, the flag of an error and the message's form alone. -/
theorem inv_of_not_busy {s : State} (hb : s.busy = false) (hp : s.phase = .idle) (ht : s.tone = false)
    (hi : s.err = .ok → s.symIdx = 0) (hd : s.err ≠ .ok → s.done = true) (ha : s.abortPending = false)
    (hm : Memory.wf s.msg = true) : Inv s where
  idle_of_not_busy _ := hp
  quiet_outside_symbol _ := ⟨ht, hi⟩
  byte_le_length h := by simp [hb] at h
  byte_lt_length h := by simp [hp] at h
  sample_le_count h := by simp [hp] at h
  cursor_emitting h := by simp [hp] at h
  cursor_between h := by simp [hb] at h
  done_of_err := hd
  not_busy_and_done h := by simp [hb] at h
  abort_of_busy h := by simp [ha] at h
  opened h := by simp [hp] at h
  legal_after_first h := by simp [hb] at h
  message_wf := hm

/-- The error entry meets the invariants wherever it is taken. -/
theorem raiseError_inv {e : ErrCode} {s : State} (he : e ≠ .ok) (hm : Memory.wf s.msg = true) :
    Inv (raiseError e s) :=
  inv_of_not_busy rfl rfl rfl (fun h => absurd h he) (fun _ => rfl) rfl hm

/-- A block reset meets the invariants whatever it was doing. -/
theorem resetBlock_inv {s : State} (hm : Memory.wf s.msg = true) : Inv (resetBlock s) :=
  inv_of_not_busy rfl rfl rfl (fun _ => rfl) (fun h => absurd rfl h) rfl hm

/-- A transmission in progress has raised no error. -/
theorem err_ok_of_busy {s : State} (h : Inv s) (hb : s.busy = true) : s.err = .ok := by
  by_contra he
  simpa [h.done_of_err he] using h.not_busy_and_done hb

/-- With no transmission in progress no ABORT is pending. -/
theorem abortPending_of_not_busy {s : State} (h : Inv s) (hb : s.busy = false) : s.abortPending = false := by
  by_contra ha
  simpa [hb] using (h.abort_of_busy (by simpa using ha)).1

/-- Between two frames a busy block holds symbol index 0 (R35 (b)). -/
theorem symIdx_eq_zero_between {s : State} (h : Inv s) (hb : s.busy = true) (hp : s.phase ≠ .emitting) :
    s.symIdx = 0 :=
  (h.quiet_outside_symbol hp).2 (err_ok_of_busy h hb)

/-- The next sample of a window is counted without overflow (R33). -/
theorem sampleIdx_add_one_toNat {s : State} (h : s.sampleIdx.toNat < s.nSym.toNat) :
    (s.sampleIdx + 1).toNat = s.sampleIdx.toNat + 1 := by bv_omega

/-- The next byte of a message is counted without overflow. -/
theorem byteIdx_add_one_toNat {s : State} (h : s.byteIdx.toNat < s.msgLen.toNat) :
    (s.byteIdx + 1).toNat = s.byteIdx.toNat + 1 := by bv_omega

theorem symIdx_add_one_val {s : State} (h : s.symIdx.val < 10) : (s.symIdx + 1).val = s.symIdx.val + 1 :=
  Fin.val_add_one_of_lt' (by omega)

/-- The samples accepted by the end of a symbol are those of the symbols up to it (R35 (e)). -/
theorem cursor_of_window_done {s : State} (h : Inv s) (hp : s.phase = .emitting) (hn : s.sampleIdx = s.nSym) :
    s.cursor = (11 * s.byteIdx.toNat + s.symIdx.val + 1) * windowLength s := by
  obtain ⟨hlegal, hcount, -⟩ := h.opened hp
  rw [h.cursor_emitting hp, hn, nSym_toNat_of_opened hlegal hcount]
  ring

/-! ## The invariants: the host's side -/

theorem startTransmission_inv {s : State} (h : Inv s) : Inv (startTransmission s) := by
  rw [startTransmission]
  split_ifs with hb
  · exact h
  · exact {
      idle_of_not_busy := fun _ => rfl
      quiet_outside_symbol := fun _ => ⟨rfl, fun _ => rfl⟩
      byte_le_length := fun _ => Nat.zero_le _
      byte_lt_length := nofun
      sample_le_count := nofun
      cursor_emitting := nofun
      cursor_between := fun _ _ => (Nat.zero_mul _).symm
      done_of_err := fun he => absurd rfl he
      not_busy_and_done := fun _ => rfl
      abort_of_busy := nofun
      opened := nofun
      legal_after_first := fun _ h0 => absurd rfl h0
      message_wf := h.message_wf }

/-- An ABORT latched in a transmission, where the command exists. -/
theorem requestAbort_inv {s : State} (h : Inv s) : Inv (requestAbort s) := by
  rw [requestAbort]
  split_ifs with ha
  · obtain ⟨habort, hbusy⟩ := Bool.and_eq_true_iff.mp ha
    exact { h with abort_of_busy := fun _ => ⟨hbusy, habort⟩ }
  · exact h

/-- Configuration is stored only with no transmission in progress, where no invariant speaks of it. -/
theorem accessReg_inv {s : State} (r : Reg) (a : Access) (h : Inv s) : Inv (accessReg r a s) := by
  rcases accessReg_cases r a s with ⟨_, h'⟩ | h' | h' | h' | ⟨hb, _, _, _, _, _, _, _, _, h'⟩ <;> rw [h']
  · exact { h with }
  · exact startTransmission_inv h
  · exact requestAbort_inv h
  · exact h
  · have hp := h.idle_of_not_busy hb
    have ha := abortPending_of_not_busy h hb
    obtain ⟨ht, hi⟩ := h.quiet_outside_symbol (by simp [hp])
    exact inv_of_not_busy hb hp ht hi h.done_of_err ha h.message_wf

theorem writeMessage_inv {s : State} (i : Nat) (b : Byte) (h : Inv s) : Inv { s with msg := s.msg.write i b } :=
  { h with message_wf := write_wf s.msg i b h.message_wf }

/-- Settles O46: the reset state is a block reset, it has received nothing, and its port is empty. -/
theorem resetMeetsTheInvariants : Obligations.ResetMeetsTheInvariants := by
  refine ⟨resetBlock_inv (s := State.reset) reset_wf, ?_, nofun⟩
  exact {
    cursor_le_received := Nat.le_refl 0
    reads_in_order := nofun
    frame_of_last_byte := nofun
    stream_is_prefix := nofun }

/-! ## The invariants: the block's steps -/

/-- A symbol opened in a transmission where the samples accepted are those of the symbols before it. -/
theorem openSymbol_inv {s : State} (h : Inv s) (k : Fin 11) (hb : s.busy = true)
    (hlt : s.byteIdx.toNat < s.msgLen.toNat)
    (hc : s.cursor = (11 * s.byteIdx.toNat + k.val) * windowLength s) : Inv (openSymbol k s) := by
  cases hbad : badArguments s.symDur s.sampleRate
  · rw [openSymbol_of_legal k hbad]
    exact {
      idle_of_not_busy := fun hb' => by simp [hb] at hb'
      quiet_outside_symbol := fun hp => absurd rfl hp
      byte_le_length := fun _ => hlt.le
      byte_lt_length := fun _ => hlt
      sample_le_count := fun _ => Nat.zero_le _
      cursor_emitting := fun _ => hc
      cursor_between := fun _ hp => absurd rfl hp
      done_of_err := h.done_of_err
      not_busy_and_done := h.not_busy_and_done
      abort_of_busy := h.abort_of_busy
      opened := fun _ => ⟨hbad, rfl, rfl, rfl, rfl⟩
      legal_after_first := h.legal_after_first
      message_wf := h.message_wf }
  · rw [openSymbol_of_bad k hbad]
    exact raiseError_inv (by decide) h.message_wf

/-- Between two frames the byte last read is free. -/
theorem inv_of_shreg {s : State} (h : Inv s) (hp : s.phase ≠ .emitting) (b : Byte) : Inv { s with shreg := b } :=
  { h with opened := fun hp' => absurd hp' hp }

theorem fetch_keeps_inv {s t : State} (h : Inv s) (he : exec .fetch s = .next t) : Inv t := by
  obtain ⟨⟨hb, hp, hlt⟩, ⟨-, rfl⟩ | ⟨_, _, rfl⟩ | ⟨l, n, b, rfl⟩⟩ := fetch_cases he
  · exact raiseError_inv (by decide) h.message_wf
  · exact { h with }
  · have hp' : s.phase ≠ .emitting := by simp [hp]
    have hread : Inv { s with msgIn := l, draws := n, reads := s.reads ++ [(s.byteIdx, b)], shreg := b } :=
      { inv_of_shreg h hp' b with }
    exact openSymbol_inv hread 0 hb hlt (h.cursor_between hb hp')

theorem emit_keeps_inv {s t : State} (h : Inv s) (he : exec .emit s = .next t) : Inv t := by
  obtain ⟨⟨hb, hp, hlt⟩, l, n, rfl | rfl | rfl⟩ := emit_cases he
  · have hnext := sampleIdx_add_one_toNat hlt
    have hcursor : s.cursor + 1 =
        (11 * s.byteIdx.toNat + s.symIdx.val) * windowLength s + (s.sampleIdx + 1).toNat := by
      rw [hnext, h.cursor_emitting hp, Nat.add_assoc]
    exact { h with
      sample_le_count := fun _ => hnext.trans_le hlt
      cursor_emitting := fun _ => hcursor
      cursor_between := fun _ hp' => absurd hp hp' }
  · exact { h with }
  · exact raiseError_inv (by decide) h.message_wf

theorem nextsym_keeps_inv {s t : State} (h : Inv s) (he : exec .nextsym s = .next t) : Inv t := by
  obtain ⟨⟨hb, hp, hn, hi⟩, ⟨-, rfl⟩ | ⟨-, rfl⟩⟩ := nextsym_cases he
  · exact raiseError_inv (by decide) h.message_wf
  · refine openSymbol_inv h (s.symIdx + 1) hb (h.byte_lt_length hp) ?_
    rw [cursor_of_window_done h hp hn, symIdx_add_one_val hi, Nat.add_assoc]

theorem endframe_keeps_inv {s t : State} (h : Inv s) (he : exec .endframe s = .next t) : Inv t := by
  obtain ⟨⟨hb, hp, hn, hi⟩, p, l, hp', rfl⟩ := endframe_cases he
  have hlt := h.byte_lt_length hp
  have hnext := byteIdx_add_one_toNat hlt
  have hlast : s.symIdx.val = 10 := by omega
  have hcursor : s.cursor = 11 * (s.byteIdx + 1).toNat * windowLength s := by
    rw [cursor_of_window_done h hp hn, hlast, hnext]
    rfl
  exact {
    idle_of_not_busy := fun hb' => by simp [hb] at hb'
    quiet_outside_symbol := fun _ => ⟨rfl, fun _ => rfl⟩
    byte_le_length := fun _ => hnext.trans_le hlt
    byte_lt_length := fun h' => absurd h' hp'
    sample_le_count := fun h' => absurd h' hp'
    cursor_emitting := fun h' => absurd h' hp'
    cursor_between := fun _ _ => hcursor
    done_of_err := h.done_of_err
    not_busy_and_done := h.not_busy_and_done
    abort_of_busy := h.abort_of_busy
    opened := fun h' => absurd h' hp'
    legal_after_first := fun _ _ => (h.opened hp).1
    message_wf := h.message_wf }

theorem gapdone_keeps_inv {s t : State} (h : Inv s) (he : exec .gapdone s = .next t) : Inv t := by
  obtain ⟨⟨hb, hp⟩, p, l, n, hp', rfl⟩ := gapdone_cases he
  have hs : s.phase ≠ .emitting := by simp [hp]
  have ht : p ≠ .emitting := by rcases hp' with rfl | rfl <;> decide
  exact { h with
    idle_of_not_busy := fun hb' => by simp [hb] at hb'
    quiet_outside_symbol := fun _ => h.quiet_outside_symbol hs
    byte_lt_length := fun h' => absurd h' ht
    sample_le_count := fun h' => absurd h' ht
    cursor_emitting := fun h' => absurd h' ht
    cursor_between := fun _ _ => h.cursor_between hb hs
    opened := fun h' => absurd h' ht }

theorem finish_keeps_inv {s t : State} (h : Inv s) (he : exec .finish s = .next t) : Inv t := by
  obtain ⟨⟨hb, hp, -⟩, rfl⟩ := finish_cases he
  have hs : s.phase ≠ .emitting := by simp [hp]
  have h0 := symIdx_eq_zero_between h hb hs
  exact inv_of_not_busy rfl hp (h.quiet_outside_symbol hs).1 (fun _ => h0) (fun _ => rfl) rfl h.message_wf

/-- Each of the six steps of the transmitter keeps the invariants. -/
theorem selected_keeps_inv {i : Instr} {s t : State} (h : Inv s) (hi : selectStep s = some i)
    (he : exec i s = .next t) : Inv t := by
  rcases selected_cases hi he with he | he | he | he | he | he
  · exact fetch_keeps_inv h he
  · exact emit_keeps_inv h he
  · exact nextsym_keeps_inv h he
  · exact endframe_keeps_inv h he
  · exact gapdone_keeps_inv h he
  · exact finish_keeps_inv h he

/-! ## The port -/

@[simp] theorem openSymbol_port (k : Fin 11) (s : State) : (openSymbol k s).port = s.port := by
  cases h : badArguments s.symDur s.sampleRate
  · rw [openSymbol_of_legal k h]
  · rw [openSymbol_of_bad k h, raiseError_port]

@[simp] theorem accessReg_port (r : Reg) (a : Access) (s : State) : (accessReg r a s).port = s.port := by
  rcases accessReg_cases r a s with ⟨_, h⟩ | h | h | h | ⟨_, _, _, _, _, _, _, _, _, h⟩ <;> rw [h]
  · rw [startTransmission]
    split_ifs <;> rfl
  · rw [requestAbort]
    split_ifs <;> rfl

/-- The six steps leave the port alone, but for a FETCH that waits, which keeps the turn. -/
theorem selected_port {i : Instr} {s t : State} (hi : selectStep s = some i) (h : exec i s = .next t) :
    t.port = s.port ∨ t.port = heldPort s.port := by
  rcases selected_cases hi h with h | h | h | h | h | h
  · obtain ⟨-, ⟨-, rfl⟩ | ⟨_, _, rfl⟩ | ⟨_, _, _, rfl⟩⟩ := fetch_cases h
    · exact .inl rfl
    · exact .inr rfl
    · exact .inl (openSymbol_port 0 _)
  · obtain ⟨-, _, _, rfl | rfl | rfl⟩ := emit_cases h <;> exact .inl rfl
  · obtain ⟨-, ⟨-, rfl⟩ | ⟨-, rfl⟩⟩ := nextsym_cases h
    · exact .inl rfl
    · exact .inl (openSymbol_port _ _)
  · obtain ⟨-, _, _, -, rfl⟩ := endframe_cases h
    exact .inl rfl
  · obtain ⟨-, _, _, _, -, rfl⟩ := gapdone_cases h
    exact .inl rfl
  · obtain ⟨-, rfl⟩ := finish_cases h
    exact .inl rfl

theorem hostOnly_of_port_eq {s t : State} (h : HostOnly s) (ht : t.port = s.port) : HostOnly t := by
  rw [HostOnly, ht]
  exact h

/-- The six steps put nothing on the port that the environment cannot cause. -/
theorem selected_keeps_hostOnly {i : Instr} {s t : State} (h : HostOnly s) (hi : selectStep s = some i)
    (he : exec i s = .next t) : HostOnly t := by
  rcases selected_port hi he with ht | ht
  · exact hostOnly_of_port_eq h ht
  · exact hostOnly_of_port_eq (holdTurn_hostOnly h) ht

/-- Settles O47: with the first port event taken the invariants still hold, and then an access of the host, a message
byte, the reset input, an idle boundary and each of the six steps keep them. -/
theorem stepKeepsTheInvariants : Obligations.StepKeepsTheInvariants := by
  intro s t hp h hstep
  obtain ⟨rest, hrest, hcases⟩ := step_cases hp hstep
  have hinv : Inv { s with port := rest } := { h with }
  have hhost : HostOnly { s with port := rest } := hrest
  rcases hcases with ⟨r, a, rfl⟩ | ⟨i, b, rfl⟩ | rfl | ⟨-, rfl⟩ | ⟨i, hi, he⟩
  · exact ⟨accessReg_inv r a hinv, hostOnly_of_port_eq hhost (accessReg_port r a _)⟩
  · exact ⟨writeMessage_inv i b hinv, hhost⟩
  · exact ⟨resetBlock_inv h.message_wf, hhost⟩
  · exact ⟨hinv, hhost⟩
  · exact ⟨selected_keeps_inv hinv hi he, selected_keeps_hostOnly hhost hi he⟩

/-! ## The order of the position (R20) -/

/-- The position of `t` is not behind that of `s`: `BYTE_IDX` first, then `SYM_IDX`, then, while `s` emits a symbol,
`SAMPLE_IDX` (log 20). -/
def PositionAdvances (s t : State) : Prop :=
  s.byteIdx.toNat < t.byteIdx.toNat ∨
  (s.byteIdx = t.byteIdx ∧ s.symIdx.val < t.symIdx.val) ∨
  (s.byteIdx = t.byteIdx ∧ s.symIdx = t.symIdx ∧ (s.phase = .emitting → s.sampleIdx.toNat ≤ t.sampleIdx.toNat))

theorem positionAdvances_of_eq {s t : State} (hb : s.byteIdx = t.byteIdx) (hi : s.symIdx = t.symIdx)
    (hn : s.sampleIdx = t.sampleIdx) : PositionAdvances s t :=
  .inr (.inr ⟨hb, hi, fun _ => by rw [hn]⟩)

@[simp] theorem openSymbol_byteIdx (k : Fin 11) (s : State) : (openSymbol k s).byteIdx = s.byteIdx := by
  cases h : badArguments s.symDur s.sampleRate
  · rw [openSymbol_of_legal k h]
  · rw [openSymbol_of_bad k h, raiseError_byteIdx]

@[simp] theorem openSymbol_symIdx (k : Fin 11) (s : State) : (openSymbol k s).symIdx = k := by
  cases h : badArguments s.symDur s.sampleRate
  · rw [openSymbol_of_legal k h]
  · rw [openSymbol_of_bad k h, raiseError_symIdx]

/-- Of the six steps ENDFRAME advances the byte, NEXTSYM the symbol and EMIT the sample, and the others that leave the
block busy keep the position; FETCH opens symbol 0, where `SYM_IDX` stands already. -/
theorem selected_positionAdvances {i : Instr} {s t : State} (h : Inv s) (hi : selectStep s = some i)
    (he : exec i s = .next t) (hbt : t.busy = true) : PositionAdvances s t := by
  rcases selected_cases hi he with he | he | he | he | he | he
  · obtain ⟨⟨hb, hp, -⟩, ⟨-, rfl⟩ | ⟨_, _, rfl⟩ | ⟨_, _, _, rfl⟩⟩ := fetch_cases he
    · simp at hbt
    · exact positionAdvances_of_eq rfl rfl rfl
    · have h0 := symIdx_eq_zero_between h hb (by simp [hp])
      exact .inr (.inr ⟨by simp, by simp [h0], by simp [hp]⟩)
  · obtain ⟨⟨-, -, hlt⟩, _, _, rfl | rfl | rfl⟩ := emit_cases he
    · exact .inr (.inr ⟨rfl, rfl, fun _ => (Nat.le_succ _).trans (sampleIdx_add_one_toNat hlt).ge⟩)
    · exact positionAdvances_of_eq rfl rfl rfl
    · simp at hbt
  · obtain ⟨⟨-, -, -, hk⟩, ⟨-, rfl⟩ | ⟨-, rfl⟩⟩ := nextsym_cases he
    · simp at hbt
    · refine .inr (.inl ⟨by simp, ?_⟩)
      rw [openSymbol_symIdx, symIdx_add_one_val hk]
      exact Nat.lt_succ_self _
  · obtain ⟨⟨-, hp, -⟩, _, _, -, rfl⟩ := endframe_cases he
    exact .inl ((Nat.lt_succ_self _).trans_eq (byteIdx_add_one_toNat (h.byte_lt_length hp)).symm)
  · obtain ⟨-, _, _, _, -, rfl⟩ := gapdone_cases he
    exact positionAdvances_of_eq rfl rfl rfl
  · obtain ⟨-, rfl⟩ := finish_cases he
    simp at hbt

/-- Settles O53: in a transmission the host and the message leave the position alone, and the six steps advance or keep
it. -/
theorem positionNeverGoesBack : Obligations.PositionNeverGoesBack := by
  intro s t hp h hb hstep hbt
  obtain ⟨rest, -, ⟨r, a, rfl⟩ | ⟨i, b, rfl⟩ | rfl | ⟨hidle, -⟩ | ⟨i, hi, he⟩⟩ := step_cases hp hstep
  · rcases accessReg_cases_of_busy (s := { s with port := rest }) r a hb with ⟨v, h'⟩ | ⟨-, h'⟩ <;> rw [h'] <;>
      exact positionAdvances_of_eq (s := s) rfl rfl rfl
  · exact positionAdvances_of_eq (s := s) rfl rfl rfl
  · simp [resetBlock] at hbt
  · simp [hb] at hidle
  · have hinv : Inv { s with port := rest } := { h with }
    have hadv := selected_positionAdvances hinv hi he hbt
    exact hadv

end Sys2Proof.Proofs

/-! # Proofs: the memories (20_memory.md)

The byte image of the samples (R41, R42), the message the host answers reads from (R51), and what every step keeps of the
sink's stream and of the reads (R46, R51, R123). -/

namespace Sys2Proof.Proofs

open Sys2Proof.Machine Sys2Proof.Laws Sys2Proof.Safety

/-! ## Lists put together from pieces of one length -/

/-- Where every piece has `n` elements, element `j` of piece `k` stands at `n * k + j`. -/
theorem getElem?_flatMap_of_length {α β : Type} {f : α → List β} {n j : Nat} (hf : ∀ x, (f x).length = n)
    (hj : j < n) (l : List α) (k : Nat) : (l.flatMap f)[n * k + j]? = l[k]?.bind fun x => (f x)[j]? := by
  induction l generalizing k with
  | nil => simp
  | cons x xs ih =>
    rw [List.flatMap_cons]
    cases k with
    | zero =>
      rw [Nat.mul_zero, Nat.zero_add, List.getElem?_append_left (by rw [hf]; exact hj)]
      rfl
    | succ k =>
      have hskip : n * (k + 1) + j - n = n * k + j := by rw [Nat.mul_succ]; omega
      rw [List.getElem?_append_right (by rw [hf, Nat.mul_succ]; omega), hf, hskip, ih]
      rfl

/-! ## The byte image of the samples (R41, R42) -/

/-- The low part of a sample's pattern and the high part. -/
theorem pcmBytes_eq (v : Sample) :
    pcmBytes v = [BitVec.ofNat 8 (v.toNat % 256), BitVec.ofNat 8 (v.toNat / 256)] := by
  have hlow : v.extractLsb' 0 8 = BitVec.ofNat 8 (v.toNat % 256) := by
    apply BitVec.eq_of_toNat_eq
    simp
  have hhigh : v.extractLsb' 8 8 = BitVec.ofNat 8 (v.toNat / 256) := by
    apply BitVec.eq_of_toNat_eq
    simp [Nat.shiftRight_eq_div_pow]
  rw [pcmBytes, hlow, hhigh]

/-- A sample's pattern is its value modulo 65536. -/
theorem sample_toNat_eq_toInt_emod (v : Sample) : v.toNat = (v.toInt % 65536).toNat := by
  have hv := v.isLt
  rw [BitVec.toInt_eq_toNat_cond]
  split_ifs <;> omega

@[simp] theorem pcmBytes_length (v : Sample) : (pcmBytes v).length = 2 := rfl

/-- Byte `j` of the image of element `k` is byte `2k + j` of the sink's bytes. -/
theorem sinkBytes_getElem? {s : State} {k j : Nat} {v : Sample} (hv : s.sink[k]? = some v) (hj : j < 2) :
    s.sinkBytes[2 * k + j]? = (pcmBytes v)[j]? := by
  rw [State.sinkBytes, getElem?_flatMap_of_length pcmBytes_length hj, hv, Option.bind_some]

/-- Settles O26: two bytes stand for each sample, so element `k` of the sink's samples is bytes `2k` and `2k + 1`. -/
theorem pcmBytesAreLittleEndian : Obligations.PcmBytesAreLittleEndian := by
  refine ⟨fun v => ⟨pcmBytes_eq v, sample_toNat_eq_toInt_emod v⟩, fun s k v hv => ⟨?length, ?low, ?high⟩⟩
  case length => simp [State.sinkBytes, List.length_flatMap, Nat.mul_comm]
  case low => exact sinkBytes_getElem? hv Nat.zero_lt_two
  case high => exact sinkBytes_getElem? hv Nat.one_lt_two

/-! ## The message (R51) -/

/-- Settles O27: the event is a write of the message memory. -/
theorem messageByteReadsBack : Obligations.MessageByteReadsBack := by
  intro s rest i b hport
  exact ⟨s.msg.write i b, step_of_port_cons hport, read_write_same s.msg i b,
    fun j hj => read_write_other s.msg i j b hj, write_wf s.msg i b⟩

/-! ## The stream as a function (R112) -/

@[simp] theorem window_length (s : State) (lv : Bool) : (window s lv).length = windowLength s := by
  have hd : (mapLevel s lv).d = s.symDur := by cases lv <;> rfl
  simp [window, SampleSeq.toList, synthesize, windowLength, hd]

theorem window_getElem? (s : State) (lv : Bool) {n : Nat} (hn : n < windowLength s) :
    (window s lv)[n]? =
      some (sampleFn s.params (mapLevel s lv).f (mapLevel s lv).a (BitVec.ofNat 64 n) s.sampleRate) := by
  have hlen : n < (window s lv).length := (window_length s lv).symm ▸ hn
  rw [List.getElem?_eq_getElem hlen]
  simp [window, SampleSeq.toList, SampleSeq.get, synthesize]

/-- The symbol of a frame at an index has the level of that index. -/
theorem frame_getElem?_level (b : Byte) (i : Fin 11) : (frame b)[i.val]?.map Symbol.level = some (level b i) := by
  fin_cases i <;> rfl

theorem frame_length (b : Byte) : (frame b).length = 11 := rfl

@[simp] theorem frameSamples_length (s : State) (b : Byte) : (frameSamples s b).length = 11 * windowLength s := by
  simp only [frameSamples, List.length_flatMap, window_length, List.map_const', List.sum_replicate, frame_length,
    smul_eq_mul]

/-- A frame's samples are the windows of its symbols' levels in order. -/
theorem frameSamples_getElem? (s : State) (b : Byte) (i : Fin 11) {n : Nat} (hn : n < windowLength s) :
    (frameSamples s b)[windowLength s * i.val + n]? = (window s (level b i))[n]? := by
  obtain ⟨y, hy, hlevel⟩ := Option.map_eq_some_iff.mp (frame_getElem?_level b i)
  have hwindow : ∀ y : Symbol, (window s y.level).length = windowLength s := fun y => window_length s y.level
  rw [frameSamples, getElem?_flatMap_of_length hwindow hn, hy, Option.bind_some, hlevel]

/-- Sample `n` of symbol `i` of frame `k` stands at `(11 k + i) N + n` in the stream of a message. -/
theorem messageSamples_getElem? (s : State) {bytes : List Byte} {k n : Nat} {b : Byte} (i : Fin 11)
    (hb : bytes[k]? = some b) (hn : n < windowLength s) :
    (messageSamples s bytes)[(11 * k + i.val) * windowLength s + n]? = (window s (level b i))[n]? := by
  have hj : windowLength s * i.val + n < 11 * windowLength s :=
    calc windowLength s * i.val + n < windowLength s * (i.val + 1) := by rw [Nat.mul_succ]; omega
      _ ≤ windowLength s * 11 := Nat.mul_le_mul_left _ i.isLt
      _ = 11 * windowLength s := Nat.mul_comm _ _
  have hpos : (11 * k + i.val) * windowLength s + n = 11 * windowLength s * k + (windowLength s * i.val + n) := by
    ring
  rw [hpos, messageSamples, getElem?_flatMap_of_length (frameSamples_length s) hj, hb, Option.bind_some,
    frameSamples_getElem? s b i hn]

/-! ## The stream and the reads of a transmission -/

/-- The samples of a transmission are the last `CURSOR` the sink has received (log 17). -/
theorem stream_eq_rtake (s : State) : s.stream = s.sink.rtake s.cursor := rfl

theorem runReads_eq_rtake (s : State) : runReads s = s.reads.rtake (readCount s) := rfl

@[simp] theorem acceptSample_stream (v : Sample) (s : State) : (acceptSample v s).stream = s.stream ++ [v] := by
  simp [stream_eq_rtake, List.rtake_concat_succ]

theorem readCount_of_emitting {s : State} (h : s.phase = .emitting) : readCount s = s.byteIdx.toNat + 1 := by
  simp [readCount, h]

theorem readCount_of_not_emitting {s : State} (h : s.phase ≠ .emitting) : readCount s = s.byteIdx.toNat := by
  simp [readCount, h]

theorem stream_length {s : State} (h : StreamInv s) : s.stream.length = s.cursor := by
  have := h.cursor_le_received
  rw [State.stream, List.length_drop]
  omega

theorem runBytes_length {s : State} (h : StreamInv s) (hb : s.busy = true) : (runBytes s).length = readCount s := by
  have := (h.reads_in_order hb).1
  rw [runBytes, List.length_map, runReads, List.length_drop]
  omega

/-- The stream of the bytes read is at least as long as the samples accepted. -/
theorem cursor_le_messageSamples_length {s : State} (h : StreamInv s) (hb : s.busy = true) :
    s.cursor ≤ (messageSamples s (runBytes s)).length := by
  have hlen := congrArg List.length (h.stream_is_prefix hb)
  rw [stream_length h, List.length_take] at hlen
  omega

/-- While a symbol is emitted the byte at `BYTE_IDX` of those read is `SHREG` (R34). -/
theorem runBytes_byteIdx {s : State} (h : StreamInv s) (hb : s.busy = true) (hp : s.phase = .emitting) :
    (runBytes s)[s.byteIdx.toNat]? = some s.shreg := by
  have hlast := h.frame_of_last_byte hp
  rwa [List.getLast?_eq_getElem?, runBytes_length h hb, readCount_of_emitting hp] at hlast

/-- While a sample is presented it is element `CURSOR` of the stream of the bytes read (R118). -/
theorem messageSamples_cursor {s : State} (hi : Inv s) (h : StreamInv s) (hb : s.busy = true)
    (hp : s.phase = .emitting) (hlt : s.sampleIdx.toNat < s.nSym.toNat) :
    (messageSamples s (runBytes s))[s.cursor]? = some (currentSample s) := by
  obtain ⟨hlegal, hcount, htone, hf, ha⟩ := hi.opened hp
  rw [nSym_toNat_of_opened hlegal hcount] at hlt
  rw [hi.cursor_emitting hp, messageSamples_getElem? s s.symIdx (runBytes_byteIdx h hb hp) hlt,
    window_getElem? s _ hlt, ← htone, ← hf, ← ha, BitVec.ofNat_toNat, BitVec.setWidth_eq]
  rfl

/-! ## The stream is kept: rules by the kind of state -/

/-- With no transmission in progress only the sink's length is asked for. -/
theorem streamInv_of_not_busy {s : State} (hc : s.cursor ≤ s.sink.length) (hb : s.busy = false)
    (hp : s.phase = .idle) : StreamInv s where
  cursor_le_received := hc
  reads_in_order h := by simp [hb] at h
  frame_of_last_byte h := by simp [hp] at h
  stream_is_prefix h := by simp [hb] at h

theorem raiseError_streamInv {e : ErrCode} {s : State} (hc : s.cursor ≤ s.sink.length) :
    StreamInv (raiseError e s) :=
  streamInv_of_not_busy hc rfl rfl

/-- A transmission begins with nothing received and nothing read. -/
theorem startTransmission_streamInv {s : State} (h : StreamInv s) : StreamInv (startTransmission s) := by
  rw [startTransmission]
  split_ifs with hb
  · exact h
  · exact {
      cursor_le_received := Nat.zero_le _
      reads_in_order := fun _ => ⟨Nat.zero_le _, by simp [runReads_eq_rtake, readCount]⟩
      frame_of_last_byte := nofun
      stream_is_prefix := fun _ => by simp [stream_eq_rtake] }

theorem accessReg_streamInv {s : State} (r : Reg) (a : Access) (hi : Inv s) (h : StreamInv s) :
    StreamInv (accessReg r a s) := by
  rcases accessReg_cases r a s with ⟨_, h'⟩ | h' | h' | h' | ⟨hb, _, _, _, _, _, _, _, _, h'⟩ <;> rw [h']
  · exact { h with }
  · exact startTransmission_streamInv h
  · rw [requestAbort]
    split_ifs
    · exact { h with }
    · exact h
  · exact h
  · exact streamInv_of_not_busy h.cursor_le_received hb (hi.idle_of_not_busy hb)

/-- A symbol opened changes nothing the stream speaks of but the phase, or the transmission ends. -/
theorem openSymbol_streamInv {s : State} (k : Fin 11) (h : StreamInv { s with phase := .emitting }) :
    StreamInv (openSymbol k s) := by
  cases hbad : badArguments s.symDur s.sampleRate
  · rw [openSymbol_of_legal k hbad]
    exact { h with }
  · rw [openSymbol_of_bad k hbad]
    exact raiseError_streamInv h.cursor_le_received

/-- A byte read between two frames is one more read of the transmission. -/
theorem runReads_of_read {s : State} (hp : s.phase = .idle) (b : Byte) :
    runReads { afterRead b s with phase := .emitting } = runReads s ++ [(s.byteIdx, b)] := by
  have hcount : readCount s = s.byteIdx.toNat := readCount_of_not_emitting (by simp [hp])
  rw [runReads_eq_rtake, runReads_eq_rtake, hcount, readCount_of_emitting rfl]
  exact List.rtake_concat_succ _ _ _

theorem runBytes_of_read {s : State} (hp : s.phase = .idle) (b : Byte) :
    runBytes { afterRead b s with phase := .emitting } = runBytes s ++ [b] := by
  rw [runBytes, runReads_of_read hp, List.map_append]
  rfl

/-- Byte `BYTE_IDX` read between two frames is the next of the bytes read, and its samples follow those accepted. -/
theorem streamInv_of_read {s : State} (h : StreamInv s) (hb : s.busy = true) (hp : s.phase = .idle) (b : Byte) :
    StreamInv { afterRead b s with phase := .emitting } := by
  obtain ⟨hle, hfst⟩ := h.reads_in_order hb
  rw [readCount_of_not_emitting (by simp [hp])] at hle hfst
  have hprefix : s.stream = (messageSamples s (runBytes s ++ [b])).take s.cursor := by
    rw [messageSamples, List.flatMap_append, ← messageSamples,
      List.take_append_of_le_length (cursor_le_messageSamples_length h hb), h.stream_is_prefix hb]
  exact {
    cursor_le_received := h.cursor_le_received
    reads_in_order := fun _ => by
      rw [readCount_of_emitting rfl, runReads_of_read hp]
      exact ⟨by simpa [afterRead] using hle, by simp [afterRead, hfst, List.range_succ]⟩
    frame_of_last_byte := fun _ => by
      rw [runBytes_of_read hp]
      exact List.getLast?_concat
    stream_is_prefix := fun _ => by
      rw [runBytes_of_read hp]
      exact hprefix }

/-- The sample accepted is the next of the stream of the bytes read. -/
theorem acceptSample_streamInv {s : State} (hi : Inv s) (h : StreamInv s) (hb : s.busy = true)
    (hp : s.phase = .emitting) (hlt : s.sampleIdx.toNat < s.nSym.toNat) :
    StreamInv (acceptSample (currentSample s) s) where
  cursor_le_received := by simpa using h.cursor_le_received
  reads_in_order := h.reads_in_order
  frame_of_last_byte := h.frame_of_last_byte
  stream_is_prefix _ := by
    have hnext : s.stream ++ [currentSample s] = (messageSamples s (runBytes s)).take (s.cursor + 1) := by
      rw [List.take_add_one, messageSamples_cursor hi h hb hp hlt, ← h.stream_is_prefix hb]
      rfl
    rw [acceptSample_stream]
    exact hnext

/-- Outside a symbol the stream is that of the bytes before `BYTE_IDX`, so a state that counts as many reads there keeps
it. -/
theorem streamInv_of_readCount {s : State} {n : Word} {p : Phase} (h : StreamInv s) (hb : s.busy = true)
    (hp : p ≠ .emitting) (hn : n.toNat = readCount s) : StreamInv { s with byteIdx := n, phase := p } := by
  have hcount : readCount { s with byteIdx := n, phase := p } = readCount s :=
    (readCount_of_not_emitting hp).trans hn
  have hreads : runReads { s with byteIdx := n, phase := p } = runReads s := by
    rw [runReads_eq_rtake, hcount, runReads_eq_rtake]
  exact {
    cursor_le_received := h.cursor_le_received
    reads_in_order := fun _ => by
      rw [hcount, hreads]
      exact h.reads_in_order hb
    frame_of_last_byte := fun h' => absurd h' hp
    stream_is_prefix := fun _ => by
      rw [runBytes, hreads]
      exact h.stream_is_prefix hb }

/-! ## The stream is kept: the block's steps -/

theorem fetch_keeps_stream {s t : State} (h : StreamInv s) (he : exec .fetch s = .next t) : StreamInv t := by
  obtain ⟨⟨hb, hp, -⟩, ⟨-, rfl⟩ | ⟨_, _, rfl⟩ | ⟨l, n, b, rfl⟩⟩ := fetch_cases he
  · exact raiseError_streamInv h.cursor_le_received
  · exact { h with }
  · exact openSymbol_streamInv 0 { streamInv_of_read h hb hp b with }

theorem emit_keeps_stream {s t : State} (hi : Inv s) (h : StreamInv s) (he : exec .emit s = .next t) :
    StreamInv t := by
  obtain ⟨⟨hb, hp, hlt⟩, l, n, rfl | rfl | rfl⟩ := emit_cases he
  · exact { acceptSample_streamInv hi h hb hp hlt with }
  · exact { h with }
  · exact raiseError_streamInv h.cursor_le_received

theorem nextsym_keeps_stream {s t : State} (h : StreamInv s) (he : exec .nextsym s = .next t) : StreamInv t := by
  obtain ⟨⟨-, hp, -⟩, ⟨-, rfl⟩ | ⟨-, rfl⟩⟩ := nextsym_cases he
  · exact raiseError_streamInv h.cursor_le_received
  · have hs : StreamInv { s with phase := .emitting } := by rwa [← hp]
    exact openSymbol_streamInv _ { hs with }

/-- The frame completed counts as many reads as the frame being emitted did. -/
theorem endframe_keeps_stream {s t : State} (hi : Inv s) (h : StreamInv s) (he : exec .endframe s = .next t) :
    StreamInv t := by
  obtain ⟨⟨hb, hp, -⟩, p, _, hp', rfl⟩ := endframe_cases he
  have hn : (s.byteIdx + 1).toNat = readCount s :=
    (byteIdx_add_one_toNat (hi.byte_lt_length hp)).trans (readCount_of_emitting hp).symm
  exact { streamInv_of_readCount h hb hp' hn with }

theorem gapdone_keeps_stream {s t : State} (h : StreamInv s) (he : exec .gapdone s = .next t) : StreamInv t := by
  obtain ⟨⟨hb, hp⟩, p, _, _, hp', rfl⟩ := gapdone_cases he
  have hn : s.byteIdx.toNat = readCount s := (readCount_of_not_emitting (by simp [hp])).symm
  exact { streamInv_of_readCount h hb (by rcases hp' with rfl | rfl <;> decide) hn with }

theorem finish_keeps_stream {s t : State} (h : StreamInv s) (he : exec .finish s = .next t) : StreamInv t := by
  obtain ⟨⟨-, hp, -⟩, rfl⟩ := finish_cases he
  exact streamInv_of_not_busy h.cursor_le_received rfl hp

/-- Each of the six steps of the transmitter keeps the stream. -/
theorem selected_keeps_stream {i : Instr} {s t : State} (hi : Inv s) (h : StreamInv s)
    (hs : selectStep s = some i) (he : exec i s = .next t) : StreamInv t := by
  rcases selected_cases hs he with he | he | he | he | he | he
  · exact fetch_keeps_stream h he
  · exact emit_keeps_stream hi h he
  · exact nextsym_keeps_stream h he
  · exact endframe_keeps_stream hi h he
  · exact gapdone_keeps_stream h he
  · exact finish_keeps_stream h he

/-- Settles O48: with the first port event taken both invariants still hold, and then an access of the host, a message
byte, the reset input, an idle boundary and each of the six steps keep the stream. -/
theorem stepKeepsTheStream : Obligations.StepKeepsTheStream := by
  intro s t hp hi h hstep
  obtain ⟨rest, -, hcases⟩ := step_cases hp hstep
  have hinv : Inv { s with port := rest } := { hi with }
  have hstream : StreamInv { s with port := rest } := { h with }
  rcases hcases with ⟨r, a, rfl⟩ | ⟨i, b, rfl⟩ | rfl | ⟨-, rfl⟩ | ⟨i, hs, he⟩
  · exact accessReg_streamInv r a hinv hstream
  · exact { h with }
  · exact streamInv_of_not_busy (Nat.zero_le _) rfl rfl
  · exact hstream
  · exact selected_keeps_stream hinv hstream hs he

end Sys2Proof.Proofs

/-! # Proofs: the encoding (30_encoding.md)

The decoder and the encoder undo each other (R60 to R64, R70 to R72), the frame word is the line code (R61, R67), and what
the command codes and the unused slots do (R70, R71). -/

namespace Sys2Proof.Proofs

open Sys2Proof.Machine Sys2Proof.Laws

/-! ## Commands (R70) -/

theorem wellFormed_cmdReserved {code : BitVec 8} :
    (Instr.cmdReserved code).WellFormed ↔ code ≠ 0x01#8 ∧ code ≠ 0x02#8 := by
  simp [Instr.WellFormed, Instr.wellFormed]

theorem decodeCommand_of_reserved {code : BitVec 8} (h : (Instr.cmdReserved code).WellFormed) :
    decodeCommand code = .cmdReserved code := by
  obtain ⟨h1, h2⟩ := wellFormed_cmdReserved.mp h
  rw [decodeCommand, if_neg h1, if_neg h2]

/-- A command code is TRANSMIT's, ABORT's or a reserved one. -/
theorem decodeCommand_cases (code : BitVec 8) :
    (code = 0x01#8 ∧ decodeCommand code = .transmit) ∨ (code = 0x02#8 ∧ decodeCommand code = .abort) ∨
      ((Instr.cmdReserved code).WellFormed ∧ decodeCommand code = .cmdReserved code) := by
  by_cases h1 : code = 0x01#8
  · subst h1; exact .inl ⟨rfl, rfl⟩
  · by_cases h2 : code = 0x02#8
    · subst h2; exact .inr (.inl ⟨rfl, rfl⟩)
    · have hwf := wellFormed_cmdReserved.mpr ⟨h1, h2⟩
      exact .inr (.inr ⟨hwf, decodeCommand_of_reserved hwf⟩)

theorem decodeCommand_wellFormed (code : BitVec 8) : (decodeCommand code).WellFormed := by
  obtain ⟨-, h⟩ | ⟨-, h⟩ | ⟨hwf, h⟩ := decodeCommand_cases code <;> rw [h]
  · rfl
  · rfl
  · exact hwf

theorem encode_decodeCommand (code : BitVec 8) : encode (decodeCommand code) = some (cmdWord code) := by
  obtain ⟨rfl, h⟩ | ⟨rfl, h⟩ | ⟨-, h⟩ := decodeCommand_cases code <;> rw [h] <;> rfl

/-! ## Slots (R62, R71) -/

theorem wellFormed_slotUnused {v : BitVec 4} : (Instr.slotUnused v).WellFormed ↔ 11 ≤ v.toNat := by
  simp [Instr.WellFormed, Instr.wellFormed]

theorem decodeSlot_of_unused {v : BitVec 4} : 11 ≤ v.toNat → decodeSlot v = .slotUnused v := by
  revert v; decide

theorem decodeSlot_wellFormed (v : BitVec 4) : (decodeSlot v).WellFormed := by revert v; decide

theorem encode_decodeSlot (v : BitVec 4) : encode (decodeSlot v) = some (slotWord v) := by revert v; decide

/-- A slot word decodes to the symbol kind its value selects. -/
theorem decode_slotWord (v : BitVec 4) : decode (slotWord v) = .ok (decodeSlot v) := by
  have hout : (slotWord v).bits.extractLsb' 4 76 = 0#76 := extract_high 0#76 v
  have hval : (slotWord v).bits.extractLsb' 0 4 = v := extract_low 0#76 v
  show (if _ then _ else _) = _
  rw [if_pos hout, hval]

/-! ## Register rows (R72) -/

theorem ofRegAccess_wellFormed (r : Reg) (a : Access) : (Instr.ofRegAccess r a).WellFormed := by cases r <;> rfl

theorem encode_ofRegAccess (r : Reg) (a : Access) : encode (.ofRegAccess r a) = some (regWord r a) := by
  cases r <;> rfl

/-! ## Frame words (R61, R67) -/

/-- Bits that lie within the low part are bits of the low part. -/
theorem extract_within_low {n m s l : Nat} (x : BitVec n) (y : BitVec m) (h : s + l ≤ m) :
    (x ++ y).extractLsb' s l = y.extractLsb' s l := by
  ext i hi
  simp only [BitVec.getElem_extractLsb', BitVec.getLsbD_append]
  rw [if_pos (by omega)]

/-- A frame word decodes to the FRAME of its byte. -/
theorem decode_frame11Word (b : Byte) : decode (frame11Word b) = .ok (.frame b) := by
  have hout : (frame11Word b).bits.extractLsb' 11 69 = 0#69 := extract_high 0#69 (frameWord b)
  have hstart : (frame11Word b).bits.extractLsb' 10 1 = 1#1 :=
    (extract_within_low 0#69 (frameWord b) (by decide)).trans
      ((extract_above 8 1 (1#1 ++ b) 0#2).trans (extract_high 1#1 b))
  have hstops : (frame11Word b).bits.extractLsb' 0 2 = 0#2 :=
    (extract_within_low 0#69 (frameWord b) (by decide)).trans (extract_low (1#1 ++ b) 0#2)
  have hbyte : (frame11Word b).bits.extractLsb' 2 8 = b :=
    (extract_within_low 0#69 (frameWord b) (by decide)).trans (extract_middle 1#1 b 0#2)
  show (if _ then if _ then _ else _ else _) = _
  rw [if_pos hout, if_pos ⟨hstart, hstops⟩, hbyte]

theorem frameWord_toNat (b : Byte) : (frameWord b).toNat = 1024 + 4 * b.toNat := by
  rw [frameWord, BitVec.toNat_append, BitVec.toNat_append, ← Nat.shiftLeft_add_eq_or_of_lt (0#2).isLt,
    ← Nat.shiftLeft_add_eq_or_of_lt b.isLt]
  simp only [Nat.shiftLeft_eq, BitVec.toNat_ofNat]
  omega

/-- The Start bit stands above the byte and the two Stops below it. -/
theorem frameWord_getLsbD (b : Byte) (i : Fin 11) : (frameWord b).getLsbD (10 - i.val) = level b i := by
  rw [frameWord, BitVec.getLsbD_append, BitVec.getLsbD_append, level]
  rcases Nat.eq_zero_or_pos i.val with h0 | h0
  · simp [h0]
  · by_cases h8 : i.val ≤ 8
    · rw [if_neg (by omega), if_pos (by omega), if_neg (by omega), if_pos h8, Nat.sub_right_comm]
    · rw [if_pos (by omega), if_neg (by omega), if_neg h8, BitVec.getLsbD_zero]

/-- The symbols of a frame and the levels by index are one table. -/
theorem frame_levels (b : Byte) : (frame b).map Symbol.level = (List.finRange 11).map (level b) := rfl

theorem level_of_data {b : Byte} {i : Fin 11} (h1 : 1 ≤ i.val) (h8 : i.val ≤ 8) :
    level b i = b.getLsbD (8 - i.val) := by
  rw [level, if_neg (by omega), if_pos h8]

/-- The data levels, most significant first, are the digits of the byte's number. -/
theorem byte_eq_sum_levels (b : Byte) :
    b.toNat = ((List.finRange 8).map fun k => (level b ⟨k.val + 1, by omega⟩).toNat * 2 ^ (7 - k.val)).sum := by
  have hb : b.toNat < 2 ^ 8 := b.isLt
  have hdigit (k : Fin 8) : (level b ⟨k.val + 1, by omega⟩).toNat = b.toNat / 2 ^ (7 - k.val) % 2 := by
    have hlevel : level b ⟨k.val + 1, by omega⟩ = b.getLsbD (8 - (k.val + 1)) :=
      level_of_data (Nat.le_add_left 1 k.val) k.isLt
    rw [hlevel, Nat.add_comm, ← Nat.sub_sub, BitVec.getLsbD, Nat.toNat_testBit]
  simp only [hdigit, List.finRange_succ, List.finRange_zero, List.map_cons, List.map_nil, List.sum_cons, List.sum_nil,
    Fin.val_zero, Fin.val_succ]
  omega

theorem frameWord_injective : Function.Injective frameWord := by
  intro b b' h
  have hnat := congrArg BitVec.toNat h
  rw [frameWord_toNat, frameWord_toNat] at hnat
  exact BitVec.eq_of_toNat_eq (by omega)

/-- Settles O13: bit by bit from the parts of the frame word, and by its number for the byte it stands for. -/
theorem frameWordIsTheLineCode : Obligations.FrameWordIsTheLineCode := fun b =>
  ⟨frameWord_toNat b, frameWord_getLsbD b, frame_levels b, fun _ => level_of_data, rfl, rfl, rfl,
    byte_eq_sum_levels b, fun _ h => frameWord_injective h⟩

/-! ## The encoder and the decoder -/

theorem decode_of_encode {i : Instr} {w : OpWord} (hi : i.WellFormed) (h : encode i = some w) : decode w = .ok i := by
  cases i with
  | transmit | abort => cases h; exact decode_cmdWord _
  | cmdReserved code => cases h; rw [decode_cmdWord, decodeCommand_of_reserved hi]
  | wr r v => cases h; exact decode_writeWord r v
  | rd r => cases h; exact decode_readWord r
  | regCmd a | regStatus a | regSampleRate a | regFreqOn a | regFreqOff a | regAmpOn a | regAmpOff a | regSymDur a
  | regGap a | regMsgLen a | regByteIdx a | regSymIdx a | regReserved _ a => cases h; exact decode_regWord _ a
  | frame b => cases h; exact decode_frame11Word b
  | start | bit0 | bit1 | bit2 | bit3 | bit4 | bit5 | bit6 | bit7 | stop0 | stop1 => cases h; exact decode_slotWord _
  | slotUnused v => cases h; rw [decode_slotWord, decodeSlot_of_unused (wellFormed_slotUnused.mp hi)]
  | synth f a d => cases h; exact decode_toneWord f a d
  | map | emit | fetch | openSym | nextsym | endframe | gapdone | finish => cases h

/-- MAP, EMIT and the steps selected by state are the operations without a word. -/
theorem encode_eq_none_iff {i : Instr} :
    encode i = none ↔
      (∃ lv, i = .map lv) ∨ i ∈ [Instr.emit, .fetch, .openSym, .nextsym, .endframe, .gapdone, .finish] := by
  constructor
  · intro h
    cases i with
    | map lv => exact .inl ⟨lv, rfl⟩
    | emit | fetch | openSym | nextsym | endframe | gapdone | finish => exact .inr (by decide)
    | _ => cases h
  · rintro (⟨lv, rfl⟩ | h)
    · rfl
    · fin_cases h <;> rfl

/-- Settles O43: the word of each operation decodes to what its fields select, which is the operation where it is well
formed. -/
theorem decodeInvertsEncode : Obligations.DecodeInvertsEncode :=
  fun _ hi => ⟨fun _ hw => decode_of_encode hi hw, encode_eq_none_iff⟩

/-- What a word of each format decodes to is well formed and is encoded in that format. -/
theorem wellFormed_and_encode_of_decode {w : OpWord} {i : Instr} (h : decode w = .ok i) :
    i.WellFormed ∧ ∃ w', encode i = some w' ∧ w'.fmt = w.fmt := by
  obtain ⟨fmt, bits⟩ := w
  cases fmt <;> simp only [decode] at h
  case cmd =>
    split_ifs at h
    cases h
    exact ⟨decodeCommand_wellFormed _, _, encode_decodeCommand _, rfl⟩
  case slot =>
    split_ifs at h
    cases h
    exact ⟨decodeSlot_wellFormed _, _, encode_decodeSlot _, rfl⟩
  case regIdx =>
    split_ifs at h
    split at h <;> cases h
    exact ⟨ofRegAccess_wellFormed _ _, _, encode_ofRegAccess _ _, rfl⟩
  case noWord => cases h
  case write | read | frame11 =>
    split_ifs at h
    cases h
    exact ⟨rfl, _, rfl, rfl⟩
  case toneReq =>
    cases h
    exact ⟨rfl, _, rfl, rfl⟩

/-- Settles O44: what is decoded is well formed and has a word of its format, and that word decodes to it by the round trip
of O43. -/
theorem decodedIsWellFormed : Obligations.DecodedIsWellFormed := by
  intro w i h
  obtain ⟨hwf, w', henc, hfmt⟩ := wellFormed_and_encode_of_decode h
  exact ⟨hwf, w', henc, hfmt, decode_of_encode hwf henc⟩

/-- Settles O45: each word is evaluated by the decoder. -/
theorem specWordsDecode : Obligations.SpecWordsDecode := by
  unfold Obligations.SpecWordsDecode
  decide

/-! ## What the command codes and the unused slots do -/

theorem exec_wr_cmd (w : Word) (s : State) : exec (.wr .cmd w) s = exec (decodeCommand (w.extractLsb' 0 8)) s :=
  (exec_decodeCommand _ s).symm

theorem requestAbort_of_not_hasAbort {s : State} (h : s.params.hasAbort = false) : requestAbort s = s := by
  simp [requestAbort, h]

/-- Settles O5: a write to `CMD` is the command its code decodes to. -/
theorem commandCodesSelectTheCommand : Obligations.CommandCodesSelectTheCommand := by
  intro s w
  have hexec := exec_wr_cmd w s
  refine ⟨fun h => ?transmit, fun h => ?abort, fun h hparam => ?noAbort, fun h1 h2 => ?reserved, fun _ => rfl⟩
  case transmit | abort => rw [hexec, h]; rfl
  case noAbort =>
    rw [hexec, h]
    exact congrArg _ (requestAbort_of_not_hasAbort hparam)
  case reserved =>
    rw [hexec, decodeCommand_of_reserved (wellFormed_cmdReserved.mpr ⟨h1, h2⟩)]
    rfl

/-- Settles O17: the slot word of the value is the value below 76 zero bits. -/
theorem unusedSlotIsStuck : Obligations.UnusedSlotIsStuck := by
  intro s v hv
  have hword : { fmt := .slot, bits := v.setWidth 80 } = slotWord v :=
    congrArg (OpWord.mk .slot) (BitVec.setWidth_eq_append (by decide))
  exact ⟨by rw [hword, decode_slotWord, decodeSlot_of_unused hv], rfl⟩

end Sys2Proof.Proofs

/-! # Proofs: the synthesizer (40_synthesizer.md)

The argument check and the sample count (R80 to R83), and the sample function: the integer value of every sample is the
clamped rounding of the exact real value, moved by at most `SAMPLE_TOL` (R84 to R88). Silence (R87), the range (R89) and
the complement of a frequency (R92) are facts about the exact value that the rounding, the clamp and
the deviation keep. -/

namespace Sys2Proof.Proofs

open Sys2Proof.Machine Sys2Proof.Laws Sys2Proof.Safety

/-! ## The argument check and the sample count (R81, R82) -/

theorem badArguments_eq_false_iff {d fs : Word} : badArguments d fs = false ↔ 0 < fs.toInt ∧ 0 ≤ d.toInt := by
  simp [badArguments]

theorem badArguments_eq_true_iff {d fs : Word} : badArguments d fs = true ↔ fs.toInt ≤ 0 ∨ d.toInt < 0 :=
  decide_eq_true_iff

theorem execSynth_of_legal {s : State} {d : Word} (f : Word) (a : Sample) (h : badArguments d s.sampleRate = false) :
    execSynth f a d s =
      .next { startWindow d s with unitOut := some (.samples (synthesize s { f := f, a := a, d := d })) } := by
  simp [execSynth, h]

theorem execSynth_of_bad {s : State} {d : Word} (f : Word) (a : Sample) (h : badArguments d s.sampleRate = true) :
    execSynth f a d s = .next (raiseError .invalidArgument s) := by
  simp [execSynth, h]

/-- The count of legal arguments is the window length of a state that holds them. -/
theorem sampleCount_lt {d fs : Word} (h : badArguments d fs = false) : sampleCount d fs < 2 ^ 43 :=
  windowLength_lt (s := { State.reset with symDur := d, sampleRate := fs }) h

/-- Settles O20: the count is a quotient of natural numbers, since the product of legal arguments is not negative. -/
theorem sampleCountIsTheExactQuotient : Obligations.SampleCountIsTheExactQuotient := by
  intro d fs hfs hd
  have hprod : ((d.toInt * fs.toInt).toNat : Int) = d.toInt * fs.toInt := Int.toNat_of_nonneg (mul_nonneg hd hfs.le)
  have hcount : sampleCount d fs = (d.toInt * fs.toInt).toNat / 1000000 := rfl
  refine ⟨?lower, ?upper, sampleCount_lt (badArguments_eq_false_iff.mpr ⟨hfs, hd⟩)⟩
  case lower | upper => omega

/-- Settles O19: the check passes exactly on legal arguments, and both outcomes are SYNTH's. -/
theorem synthChecksThenCounts : Obligations.SynthChecksThenCounts := fun _ f a _ =>
  ⟨fun hfs hd => execSynth_of_legal f a (badArguments_eq_false_iff.mpr ⟨hfs, hd⟩),
    fun h => execSynth_of_bad f a (badArguments_eq_true_iff.mpr h)⟩

/-! ## The rounding (R85) -/

theorem roundReal_zero (r : SampleRound) : roundReal r 0 = 0 := by
  simpa using roundReal_intCast r 0

theorem roundReal_nonneg (r : SampleRound) {x : ℝ} (h : 0 ≤ x) : 0 ≤ roundReal r x :=
  (roundReal_zero r).ge.trans (roundReal_mono_of_nonneg r le_rfl h)

/-- `RoundS` is odd, so it acts on the magnitude. -/
theorem roundReal_abs (r : SampleRound) (x : ℝ) : roundReal r |x| = |roundReal r x| := by
  rcases le_total 0 x with h | h
  · rw [abs_of_nonneg h, abs_of_nonneg (roundReal_nonneg r h)]
  · have hneg : 0 ≤ -roundReal r x := roundReal_neg r x ▸ roundReal_nonneg r (neg_nonneg.mpr h)
    rw [abs_of_nonpos h, roundReal_neg, abs_of_nonpos (neg_nonneg.mp hneg)]

/-- `|RoundS(x)| <= k` whenever `|x| <= k` and `k` is an integer. -/
theorem abs_roundReal_le (r : SampleRound) {x : ℝ} {k : ℤ} (h : |x| ≤ k) : |roundReal r x| ≤ k :=
  calc |roundReal r x| = roundReal r |x| := (roundReal_abs r x).symm
    _ ≤ roundReal r k := roundReal_mono_of_nonneg r (abs_nonneg x) h
    _ = k := roundReal_intCast r k

/-- The nearest roundings move a value by at most a half. -/
theorem abs_roundReal_sub_le_half {r : SampleRound} (hr : r ≠ .towardZero) (x : ℝ) :
    |(roundReal r x : ℝ) - x| ≤ 1 / 2 := by
  cases r with
  | towardZero => exact absurd rfl hr
  | nearestAway =>
    simp only [roundReal, ← round_eq]
    split_ifs
    · rw [abs_sub_comm]
      exact abs_sub_round x
    · rw [Int.cast_neg, neg_sub_comm]
      exact abs_sub_round (-x)
  | nearestEven =>
    have hlo := Int.floor_le x
    have hhi := Int.lt_floor_add_one x
    simp only [roundReal, abs_le]
    split_ifs <;> push_cast <;> constructor <;> linarith

/-- Truncation moves a value by less than one. -/
theorem abs_roundReal_towardZero_sub_le_one (x : ℝ) : |(roundReal .towardZero x : ℝ) - x| ≤ 1 := by
  have hlo := Int.floor_le x
  have hhi := Int.lt_floor_add_one x
  have hlo' := Int.floor_le (-x)
  have hhi' := Int.lt_floor_add_one (-x)
  simp only [roundReal, abs_le]
  split_ifs <;> push_cast <;> constructor <;> linarith

theorem abs_roundReal_sub_le_one (r : SampleRound) (x : ℝ) : |(roundReal r x : ℝ) - x| ≤ 1 := by
  by_cases hr : r = .towardZero
  · exact hr ▸ abs_roundReal_towardZero_sub_le_one x
  · exact (abs_roundReal_sub_le_half hr x).trans (by norm_num)

/-! ## The clamp (R86) -/

theorem clamp16_mem (v : ℤ) : -32768 ≤ clamp16 v ∧ clamp16 v ≤ 32767 := by
  unfold clamp16
  omega

theorem clamp16_of_mem {v : ℤ} (hlo : -32768 ≤ v) (hhi : v ≤ 32767) : clamp16 v = v := by
  unfold clamp16
  omega

theorem abs_clamp16_le (v : ℤ) : |clamp16 v| ≤ |v| := by
  rw [Int.abs_eq_natAbs, Int.abs_eq_natAbs, clamp16]
  omega

/-- A clamped rounding stays within one of its value: where the clamp changes it, the value lies above 32767. -/
theorem abs_clamp16_sub_le_one {k : ℤ} {x : ℝ} (hk : |k| ≤ 32768) (hx : x ≤ 32768) (h : |(k : ℝ) - x| ≤ 1) :
    |(clamp16 k : ℝ) - x| ≤ 1 := by
  rw [abs_le] at hk h
  obtain ⟨hlo, hhi⟩ := hk
  obtain rfl | hlt := hhi.eq_or_lt
  · have hclamp : clamp16 32768 = 32767 := rfl
    push_cast at h
    rw [hclamp, abs_le]
    push_cast
    constructor <;> linarith
  · rwa [clamp16_of_mem hlo (by omega), abs_le]

/-! ## The deviation (R88) -/

/-- A deviated sample is the exact one, or is moved by at most `SAMPLE_TOL` and then cut to the range. -/
theorem deviate_cases (tol : ℕ) (a : ℤ) (p q : ℕ) (v : ℤ) :
    deviate tol a p q v = v ∨
      ∃ e : ℤ, |e| ≤ tol ∧ deviate tol a p q v = clamp16 (max (-|a|) (min |a| (v + e))) := by
  unfold deviate
  split_ifs
  · exact .inl rfl
  · refine .inr ⟨max (-(tol : ℤ)) (min tol (Config.sampleDeviation a p q)), ?_, by rw [Int.abs_eq_natAbs]⟩
    rw [abs_le]
    omega

theorem deviate_of_tol_zero (a : ℤ) (p q : ℕ) (v : ℤ) : deviate 0 a p q v = v := if_pos (.inl rfl)

theorem deviate_of_index_zero (tol : ℕ) (a : ℤ) (q : ℕ) (v : ℤ) : deviate tol a 0 q v = v := if_pos (.inr rfl)

theorem deviate_mem (tol : ℕ) (a : ℤ) (p q : ℕ) {v : ℤ} (hlo : -32768 ≤ v) (hhi : v ≤ 32767) :
    -32768 ≤ deviate tol a p q v ∧ deviate tol a p q v ≤ 32767 := by
  obtain h | ⟨e, -, h⟩ := deviate_cases tol a p q v
  · rw [h]
    exact ⟨hlo, hhi⟩
  · rw [h]
    exact clamp16_mem _

theorem abs_deviate_le (tol : ℕ) {a : ℤ} (p q : ℕ) {v : ℤ} (hv : |v| ≤ |a|) : |deviate tol a p q v| ≤ |a| := by
  obtain h | ⟨e, -, h⟩ := deviate_cases tol a p q v
  · rwa [h]
  · have hcut : |max (-|a|) (min |a| (v + e))| ≤ |a| :=
      abs_le.mpr ⟨le_max_left _ _, max_le (neg_le_self (abs_nonneg a)) (min_le_left _ _)⟩
    rw [h]
    exact (abs_clamp16_le _).trans hcut

/-- The cuts move a deviated sample no further from the exact one, which lies in the range. -/
theorem abs_deviate_sub_le (tol : ℕ) {a : ℤ} (p q : ℕ) {v : ℤ} (hlo : -32768 ≤ v) (hhi : v ≤ 32767) (hv : |v| ≤ |a|) :
    |deviate tol a p q v - v| ≤ tol := by
  obtain h | ⟨e, he, h⟩ := deviate_cases tol a p q v
  · simp [h]
  · rw [h, clamp16]
    rw [abs_le] at he hv ⊢
    omega

/-! ## The exact value (R84) -/

/-- `A * sin(2 * pi * (F * n) / (1000 * Fs))`. -/
noncomputable def exactValue (f : Word) (a : Sample) (n : Count) (fs : Word) : ℝ :=
  a.toInt * Real.sin (2 * Real.pi * ((f.toNat : ℝ) * n.toNat) / (1000 * (fs.toInt : ℝ)))

theorem exactSample_eq (r : SampleRound) (f : Word) (a : Sample) (n : Count) (fs : Word) :
    exactSample r f a n fs = clamp16 (roundReal r (exactValue f a n fs)) := rfl

theorem exactValue_of_freq_zero (a : Sample) (n : Count) (fs : Word) : exactValue 0 a n fs = 0 := by
  simp [exactValue]

theorem exactValue_of_index_zero (f : Word) (a : Sample) (fs : Word) : exactValue f a 0 fs = 0 := by
  simp [exactValue]

theorem abs_exactValue_le (f : Word) (a : Sample) (n : Count) (fs : Word) :
    |exactValue f a n fs| ≤ (|a.toInt| : ℤ) := by
  rw [exactValue, abs_mul, Int.cast_abs]
  exact mul_le_of_le_one_right (abs_nonneg _) (Real.abs_sin_le_one _)

/-- R92: the angles of a frequency and of its complement to the rate add up to whole turns. -/
theorem exactValue_complement {f f' : Word} {fs : Word} (a : Sample) (n : Count) (hfs : 0 < fs.toInt)
    (h : (f.toNat + f'.toNat : ℤ) = 1000 * fs.toInt) : exactValue f' a n fs = -exactValue f a n fs := by
  have hfs' : (fs.toInt : ℝ) ≠ 0 := by exact_mod_cast hfs.ne'
  have hsum : (f'.toNat : ℝ) = 1000 * fs.toInt - f.toNat := by
    rw [eq_sub_iff_add_eq']
    exact_mod_cast h
  have hangle : 2 * Real.pi * ((f'.toNat : ℝ) * n.toNat) / (1000 * (fs.toInt : ℝ)) =
      n.toNat * (2 * Real.pi) - 2 * Real.pi * ((f.toNat : ℝ) * n.toNat) / (1000 * (fs.toInt : ℝ)) := by
    rw [hsum]
    field_simp
  rw [exactValue, exactValue, hangle, Real.sin_nat_mul_two_pi_sub, mul_neg]

/-! ## The exact sample (R84 to R86) -/

theorem exactSample_of_value_zero (r : SampleRound) {f : Word} {a : Sample} {n : Count} {fs : Word}
    (h : exactValue f a n fs = 0) : exactSample r f a n fs = 0 := by
  rw [exactSample_eq, h, roundReal_zero]
  rfl

theorem exactSample_mem (r : SampleRound) (f : Word) (a : Sample) (n : Count) (fs : Word) :
    -32768 ≤ exactSample r f a n fs ∧ exactSample r f a n fs ≤ 32767 := clamp16_mem _

theorem abs_roundReal_exactValue_le (r : SampleRound) (f : Word) (a : Sample) (n : Count) (fs : Word) :
    |roundReal r (exactValue f a n fs)| ≤ |a.toInt| := abs_roundReal_le r (abs_exactValue_le f a n fs)

theorem abs_exactSample_le (r : SampleRound) (f : Word) (a : Sample) (n : Count) (fs : Word) :
    |exactSample r f a n fs| ≤ |a.toInt| := (abs_clamp16_le _).trans (abs_roundReal_exactValue_le r f a n fs)

theorem abs_toInt_le (a : Sample) : |a.toInt| ≤ 32768 := by
  have hlo : -32768 ≤ a.toInt := a.le_toInt
  have hhi : a.toInt < 32768 := a.toInt_lt
  exact abs_le.mpr ⟨hlo, hhi.le⟩

theorem abs_toInt_le_of_ne_min {a : Sample} (h : a.toInt ≠ -32768) : |a.toInt| ≤ 32767 := by
  obtain ⟨hlo, hhi⟩ := abs_le.mp (abs_toInt_le a)
  have hlt : a.toInt < 32768 := a.toInt_lt
  rw [abs_le]
  omega

/-- R86: the clamp is the identity on every amplitude but -32768. -/
theorem exactSample_of_ne_min (r : SampleRound) (f : Word) {a : Sample} (n : Count) (fs : Word)
    (h : a.toInt ≠ -32768) : exactSample r f a n fs = roundReal r (exactValue f a n fs) := by
  obtain ⟨hlo, hhi⟩ := abs_le.mp ((abs_roundReal_exactValue_le r f a n fs).trans (abs_toInt_le_of_ne_min h))
  exact clamp16_of_mem (le_trans (by decide) hlo) hhi

theorem abs_exactSample_sub_le_one (r : SampleRound) (f : Word) (a : Sample) (n : Count) (fs : Word) :
    |(exactSample r f a n fs : ℝ) - exactValue f a n fs| ≤ 1 :=
  abs_clamp16_sub_le_one ((abs_roundReal_exactValue_le r f a n fs).trans (abs_toInt_le a))
    ((le_abs_self _).trans ((abs_exactValue_le f a n fs).trans (by exact_mod_cast abs_toInt_le a)))
    (abs_roundReal_sub_le_one r _)

/-! ## The sample function (R84 to R88) -/

theorem turnLength_cast {fs : Word} (h : 0 < fs.toInt) : (turnLength fs : ℤ) = 1000 * fs.toInt := by
  have hnat : (fs.toNat : ℤ) = fs.toInt := by
    rw [BitVec.toInt_eq_toNat_cond] at h ⊢
    omega
  rw [← hnat, turnLength, Nat.cast_mul, Nat.cast_ofNat]

/-- The sine has the period of a whole turn. -/
theorem sin_turn_mod (k : ℕ) {q : ℕ} (hq : 0 < q) :
    Real.sin (2 * Real.pi * ((k % q : ℕ) / q)) = Real.sin (2 * Real.pi * k / q) := by
  have hq' : (q : ℝ) ≠ 0 := by exact_mod_cast hq.ne'
  have hk : (k : ℝ) = (k % q : ℕ) + q * (k / q : ℕ) := by exact_mod_cast (Nat.mod_add_div k q).symm
  have hangle : 2 * Real.pi * k / q = 2 * Real.pi * ((k % q : ℕ) / q) + (k / q : ℕ) * (2 * Real.pi) := by
    rw [hk]
    field_simp
  rw [hangle, Real.sin_add_nat_mul_two_pi]

/-- The model's rounded sine is `RoundS` of the exact value. -/
theorem roundedSine_turn (r : SampleRound) (f : Word) (a : Sample) (n : Count) {fs : Word} (h : 0 < fs.toInt) :
    roundedSine r a.toInt (turnIndex f n fs) (turnLength fs) = roundReal r (exactValue f a n fs) := by
  have hcast := turnLength_cast h
  have hq : 0 < turnLength fs := by omega
  have ha : a.toInt.natAbs ≤ 32768 := by exact_mod_cast Int.abs_eq_natAbs a.toInt ▸ abs_toInt_le a
  have hreal : (turnLength fs : ℝ) = 1000 * (fs.toInt : ℝ) := by exact_mod_cast hcast
  rw [turnIndex, roundedSine_eq_roundReal r ha (Nat.mod_lt _ hq), sin_turn_mod _ hq, exactValue, hreal, Nat.cast_mul]

/-- What a sample is, as an integer: the exact sample with its deviation. -/
theorem sampleFn_toInt (c : Config.Params) (f : Word) (a : Sample) (n : Count) {fs : Word} (h : 0 < fs.toInt) :
    (sampleFn c f a n fs).toInt =
      deviate c.sampleTol a.toInt (turnIndex f n fs) (turnLength fs) (exactSample c.sampleRound f a n fs) := by
  obtain ⟨hlo, hhi⟩ := exactSample_mem c.sampleRound f a n fs
  obtain ⟨hlo, hhi⟩ := deviate_mem c.sampleTol a.toInt (turnIndex f n fs) (turnLength fs) hlo hhi
  rw [sampleFn, if_pos h, roundedSine_turn c.sampleRound f a n h, ← exactSample_eq]
  exact BitVec.toInt_ofInt_eq_self (by decide) hlo (by omega)

theorem sampleFn_toInt_of_tol_zero {c : Config.Params} (f : Word) (a : Sample) (n : Count) {fs : Word}
    (h : 0 < fs.toInt) (ht : c.sampleTol = 0) : (sampleFn c f a n fs).toInt = exactSample c.sampleRound f a n fs := by
  rw [sampleFn_toInt c f a n h, ht, deviate_of_tol_zero]

theorem abs_sampleFn_sub_exactSample_le (c : Config.Params) (f : Word) (a : Sample) (n : Count) {fs : Word}
    (h : 0 < fs.toInt) : |(sampleFn c f a n fs).toInt - exactSample c.sampleRound f a n fs| ≤ c.sampleTol := by
  obtain ⟨hlo, hhi⟩ := exactSample_mem c.sampleRound f a n fs
  rw [sampleFn_toInt c f a n h]
  exact abs_deviate_sub_le _ _ _ hlo hhi (abs_exactSample_le c.sampleRound f a n fs)

/-- Settles O24: by the integer value of a sample, and the deviation is at most `SAMPLE_TOL`. -/
theorem sampleIsTheRoundedExactSine : Obligations.SampleIsTheRoundedExactSine := fun c f a n _ h =>
  ⟨sampleFn_toInt_of_tol_zero f a n h, abs_sampleFn_sub_exactSample_le c f a n h⟩

/-- Settles O22: the exact sample is within the amplitude, and the deviation is cut to it. -/
theorem sampleWithinAmplitude : Obligations.SampleWithinAmplitude := by
  intro c f a n fs h
  rw [sampleFn_toInt c f a n h]
  exact abs_deviate_le _ _ _ (abs_exactSample_le c.sampleRound f a n fs)

/-! ## Silence (R87) -/

theorem toInt_eq_zero_iff {w : ℕ} {v : BitVec w} : v.toInt = 0 ↔ v = 0 := by
  rw [← BitVec.toInt_inj]; simp

/-- At phase 0 nothing deviates. -/
theorem sampleFn_of_turnIndex_zero (c : Config.Params) {f : Word} {a : Sample} {n : Count} {fs : Word}
    (h : 0 < fs.toInt) (hp : turnIndex f n fs = 0) (hv : exactValue f a n fs = 0) : sampleFn c f a n fs = 0 := by
  rw [← toInt_eq_zero_iff, sampleFn_toInt c f a n h, hp, deviate_of_index_zero, exactSample_of_value_zero _ hv]

theorem sampleFn_of_freq_zero (c : Config.Params) (a : Sample) (n : Count) {fs : Word} (h : 0 < fs.toInt) :
    sampleFn c 0 a n fs = 0 :=
  sampleFn_of_turnIndex_zero c h (by simp [turnIndex]) (exactValue_of_freq_zero a n fs)

theorem sampleFn_of_index_zero (c : Config.Params) (f : Word) (a : Sample) {fs : Word} (h : 0 < fs.toInt) :
    sampleFn c f a 0 fs = 0 :=
  sampleFn_of_turnIndex_zero c h (by simp [turnIndex]) (exactValue_of_index_zero f a fs)

/-- A sample within an amplitude of 0 is 0. -/
theorem sampleFn_of_amp_zero (c : Config.Params) (f : Word) (n : Count) {fs : Word} (h : 0 < fs.toInt) :
    sampleFn c f 0 n fs = 0 :=
  toInt_eq_zero_iff.mp (abs_nonpos_iff.mp (sampleWithinAmplitude c f 0 n fs h))

/-- Settles O21: at frequency 0 and at index 0 the phase is 0, at amplitude 0 the range is; a window's elements are
samples. -/
theorem silenceIsExactlyZero : Obligations.SilenceIsExactlyZero := by
  intro c f a fs h
  have hsilent : f = 0 ∨ a = 0 → ∀ n, sampleFn c f a n fs = 0 := by
    rintro (rfl | rfl) n
    · exact sampleFn_of_freq_zero c a n h
    · exact sampleFn_of_amp_zero c f n h
  refine ⟨hsilent, sampleFn_of_index_zero c f a h, fun hfa k => ?_⟩
  have hget : SampleSeq.get c { f := f, a := a, fs := fs, count := k } = fun _ => 0 := funext fun _ => hsilent hfa _
  rw [SampleSeq.toList, hget, List.map_const', List.length_range]

/-! ## The complement of a frequency (R92) -/

/-- Settles O23: the exact values are negated, rounding is odd and the clamp changes neither. The rate itself is the
complement of frequency 0. -/
theorem aliasNegatesTheWindow : Obligations.AliasNegatesTheWindow := by
  intro c f f' a n fs h ht
  refine ⟨fun hsum ha => ?complement, fun hrate => ?rate⟩
  case complement =>
    rw [sampleFn_toInt_of_tol_zero f' a n h ht, sampleFn_toInt_of_tol_zero f a n h ht,
      exactSample_of_ne_min _ f' n fs ha, exactSample_of_ne_min _ f n fs ha,
      exactValue_complement a n h hsum, roundReal_neg]
  case rate =>
    have hvalue : exactValue f a n fs = 0 := by
      rw [exactValue_complement (f := 0) a n h (by simpa using hrate), exactValue_of_freq_zero, neg_zero]
    rw [← toInt_eq_zero_iff, sampleFn_toInt_of_tol_zero f a n h ht, exactSample_of_value_zero _ hvalue]

/-! ## The distance from the exact value -/

/-- A sample is further from the exact value than the exact sample by at most `SAMPLE_TOL`. -/
theorem abs_sampleFn_sub_exactValue_le (c : Config.Params) (f : Word) (a : Sample) (n : Count) {fs : Word} {e : ℝ}
    (h : 0 < fs.toInt) (he : |(exactSample c.sampleRound f a n fs : ℝ) - exactValue f a n fs| ≤ e) :
    |((sampleFn c f a n fs).toInt : ℝ) - exactValue f a n fs| ≤ c.sampleTol + e := by
  have htol : |((sampleFn c f a n fs).toInt : ℝ) - exactSample c.sampleRound f a n fs| ≤ c.sampleTol := by
    exact_mod_cast abs_sampleFn_sub_exactSample_le c f a n h
  exact (abs_sub_le _ _ _).trans (add_le_add htol he)

/-- Settles O25: the exact sample is within one, and within a half under the nearest roundings. -/
theorem sampleWithinOneOfTheExactSine : Obligations.SampleWithinOneOfTheExactSine := by
  intro c f a n fs h
  refine ⟨abs_sampleFn_sub_exactValue_le c f a n h (abs_exactSample_sub_le_one c.sampleRound f a n fs),
    fun hr ha => abs_sampleFn_sub_exactValue_le c f a n h ?_⟩
  rw [exactSample_of_ne_min _ f n fs ha]
  exact abs_roundReal_sub_le_half hr _

end Sys2Proof.Proofs

/-! # Proofs: the framer (41_framer.md)

FRAME (R100), and the symbol rows START, BIT and STOP (R101 to R103): the row of a symbol index opens that symbol at its
level, and a symbol opened is OPEN's state with legal arguments, or its InvalidArgument entry (R117). -/

namespace Sys2Proof.Proofs

open Sys2Proof.Machine Sys2Proof.Laws Sys2Proof.Safety

/-! ## FRAME (R100) -/

/-- Settles O12: the result is the frame of the byte, by the definition of `frame`. -/
theorem frameGivesElevenSymbols : Obligations.FrameGivesElevenSymbols := fun _ _ => rfl

/-! ## A symbol opened (R110, R117) -/

theorem legalArguments_iff {s : State} : LegalArguments s ↔ badArguments s.symDur s.sampleRate = false :=
  badArguments_eq_false_iff.symm

theorem not_legalArguments_iff {s : State} : ¬ LegalArguments s ↔ badArguments s.symDur s.sampleRate = true := by
  rw [legalArguments_iff, Bool.not_eq_false]

theorem mapLevel_f (s : State) (lv : Bool) : (mapLevel s lv).f = if lv then s.freqOn else s.freqOff := by
  cases lv <;> rfl

theorem mapLevel_a (s : State) (lv : Bool) : (mapLevel s lv).a = if lv then s.ampOn else s.ampOff := by
  cases lv <;> rfl

theorem openSymbol_eq_openedAt {s : State} (h : LegalArguments s) (i : Fin 11) :
    openSymbol i s = openedAt i (level s.shreg i) s := by
  rw [openSymbol_of_legal i (legalArguments_iff.mp h), mapLevel_f, mapLevel_a]
  rfl

theorem openSymbol_eq_invalidAt {s : State} (h : ¬ LegalArguments s) (i : Fin 11) :
    openSymbol i s = invalidAt i (level s.shreg i) s := by
  rw [openSymbol_of_bad i (not_legalArguments_iff.mp h), mapLevel_f, mapLevel_a]
  rfl

/-! ## The symbol rows (R62, R101 to R103) -/

/-- The row a symbol index selects (R62) opens the symbol of that index. -/
theorem exec_decodeSlot (i : Fin 11) (s : State) :
    exec (decodeSlot (BitVec.ofNat 4 i.val)) s = .next (openSymbol i s) := by
  fin_cases i <;> rfl

theorem exec_decodeSlot_of_legal {s : State} (h : LegalArguments s) (i : Fin 11) :
    exec (decodeSlot (BitVec.ofNat 4 i.val)) s = .next (openedAt i (level s.shreg i) s) := by
  rw [exec_decodeSlot, openSymbol_eq_openedAt h]

theorem exec_decodeSlot_of_not_legal {s : State} (h : ¬ LegalArguments s) (i : Fin 11) :
    exec (decodeSlot (BitVec.ofNat 4 i.val)) s = .next (invalidAt i (level s.shreg i) s) := by
  rw [exec_decodeSlot, openSymbol_eq_invalidAt h]

/-- Settles O14: START is the row of index 0, whose level is 1 for every byte. -/
theorem startOpensAtToneOn : Obligations.StartOpensAtToneOn := fun _ =>
  ⟨fun h => exec_decodeSlot_of_legal h 0, fun h => exec_decodeSlot_of_not_legal h 0⟩

/-- Settles O15: BIT k is the row of index k + 1, whose level is bit 7 - k. -/
theorem bitOpensAtItsBitLevel : Obligations.BitOpensAtItsBitLevel := by
  refine fun s => ⟨fun h => ?legal, fun h => ?invalid⟩
  case legal =>
    have row := exec_decodeSlot_of_legal h
    exact ⟨row 1, row 2, row 3, row 4, row 5, row 6, row 7, row 8⟩
  case invalid =>
    have row := exec_decodeSlot_of_not_legal h
    exact ⟨row 1, row 2, row 3, row 4, row 5, row 6, row 7, row 8⟩

/-- Settles O16: STOP 0 and STOP 1 are the rows of indices 9 and 10, whose level is 0 for every byte. -/
theorem stopOpensAtToneOff : Obligations.StopOpensAtToneOff := fun _ =>
  ⟨fun h => ⟨exec_decodeSlot_of_legal h 9, exec_decodeSlot_of_legal h 10⟩,
    fun h => ⟨exec_decodeSlot_of_not_legal h 9, exec_decodeSlot_of_not_legal h 10⟩⟩

end Sys2Proof.Proofs

/-! # Proofs: the transmitter (42_transmitter.md)

MAP (R110), the selected step (R115), what each step row answers by what it finds (R116 to R122), the length of the
stream (R112), and the transmissions that FINISH ends (R123, R126). -/

namespace Sys2Proof.Proofs

open Sys2Proof.Machine Sys2Proof.Laws Sys2Proof.Safety

/-! ## MAP (R110) -/

/-- Settles O18: the tone request of each level, by the definition of `mapLevel`. -/
theorem mapSelectsTheLevelParameters : Obligations.MapSelectsTheLevelParameters := fun _ => ⟨rfl, rfl⟩

/-! ## The selected step (R115) -/

theorem selectStep_of_not_busy {s : State} (h : s.busy = false) : selectStep s = none := by
  simp [selectStep, h]

/-- A busy block always has a step: `BYTE_IDX` is at most `MSG_LEN`, and while a symbol is emitted `SAMPLE_IDX` is at
most `N_SYM` (R35). -/
theorem exists_selectStep_of_busy {s : State} (h : Inv s) (hb : s.busy = true) : ∃ i, selectStep s = some i := by
  cases hp : s.phase with
  | idle =>
    rcases (h.byte_le_length hb).lt_or_eq with hlt | heq
    · exact ⟨_, selectStep_fetch.mpr ⟨hb, hp, hlt⟩⟩
    · exact ⟨_, selectStep_finish.mpr ⟨hb, hp, BitVec.eq_of_toNat_eq heq⟩⟩
  | emitting =>
    rcases (h.sample_le_count hp).lt_or_eq with hlt | heq
    · exact ⟨_, selectStep_emit.mpr ⟨hb, hp, hlt⟩⟩
    · have hn := BitVec.eq_of_toNat_eq heq
      by_cases hi : s.symIdx.val < 10
      · exact ⟨_, selectStep_nextsym.mpr ⟨hb, hp, hn, hi⟩⟩
      · exact ⟨_, selectStep_endframe.mpr ⟨hb, hp, hn, hi⟩⟩
  | gapWait => exact ⟨_, selectStep_gapdone.mpr ⟨hb, hp⟩⟩

/-- The last symbol's index is the only one that is not below 10. -/
theorem not_symIdx_lt_ten_iff {i : Fin 11} : ¬ i.val < 10 ↔ i.val = 10 := by omega

/-- Settles O42: the table is the selection's own case distinction, and the invariants leave no busy state out of it. -/
theorem exactlyOneStepIsEnabled : Obligations.ExactlyOneStepIsEnabled := by
  intro s h
  refine ⟨exists_selectStep_of_busy h, selectStep_of_not_busy, selectStep_fetch, selectStep_finish, selectStep_emit,
    selectStep_nextsym, ?endframe, selectStep_gapdone⟩
  case endframe => rw [selectStep_endframe, not_symIdx_lt_ten_iff]

/-- A step row issued where R115 selects another step, or none, stops. -/
theorem whenEnabled_of_not_selected {i : Instr} {s e : State} (h : selectStep s ≠ some i) :
    whenEnabled i s e = .fault .stepNotEnabled := if_neg h

/-- Settles O39: all six rows run their effect under the one guard. -/
theorem stepRowsStopWhereNotEnabled : Obligations.StepRowsStopWhereNotEnabled := by
  intro s i hi h
  simp only [List.mem_cons, List.not_mem_nil, or_false] at hi
  rcases hi with rfl | rfl | rfl | rfl | rfl | rfl <;> exact whenEnabled_of_not_selected h

theorem blockStep_of_not_busy {s : State} (h : s.busy = false) : blockStep s = .next s :=
  blockStep_eq_next.mpr (.inr ⟨h, rfl⟩)

/-- Settles O41: an empty port and an idle event both give the block its own step. -/
theorem stepRunsTheEnabledStep : Obligations.StepRunsTheEnabledStep := by
  refine ⟨fun s i hp hs => ?_, fun s rest i hp hs => ?_, fun s hp hb => ?_, fun s rest hp hb => ?_⟩
  · rw [step_of_port_nil hp, blockStep_of_selected hs]
  · exact (step_of_port_cons hp).trans (blockStep_of_selected ((selectStep_of_port s rest).trans hs))
  · rw [step_of_port_nil hp, blockStep_of_not_busy hb]
  · exact (step_of_port_cons hp).trans (blockStep_of_not_busy hb)

/-! ## Draws from the environment beyond what is listed (log 5, log 22) -/

theorem drawSink_nil {s : State} (h : s.sinkIn = []) :
    drawSink s = (Config.sinkAnswer s.draws, { s with draws := s.draws + 1 }) := by
  simp [drawSink, h]

theorem drawMessageReady_nil {s : State} (h : s.msgIn = []) :
    drawMessageReady s = (Config.messageReady s.draws, { s with draws := s.draws + 1 }) := by
  simp [drawMessageReady, h]

theorem drawDelayDone_nil {s : State} (h : s.delayIn = []) :
    drawDelayDone s = (Config.delayDone s.draws, { s with draws := s.draws + 1 }) := by
  simp [drawDelayDone, h]

theorem memRead_of_unlisted {s : State} {i : Word} (h : s.msg.read i.toNat = none) :
    memRead s i = (Config.messageByte s.draws,
      { s with draws := s.draws + 1, reads := s.reads ++ [(i, Config.messageByte s.draws)] }) := by
  simp [memRead, messageByte, h]

/-! ## FETCH (R116) -/

/-- Settles O30: the pending ABORT is looked at before anything else. -/
theorem fetchTakesAPendingAbort : Obligations.FetchTakesAPendingAbort := by
  intro s hb hp hlt ha
  have hs := selectStep_fetch.mpr ⟨hb, hp, hlt⟩
  exact (whenEnabled_of_selected hs).trans (by rw [if_pos ha]; rfl)

section
variable {s : State} (hs : selectStep s = some .fetch) (ha : s.abortPending = false)
include hs ha

theorem exec_fetch_of_clear : exec .fetch s = .next (fetchByte s) :=
  (whenEnabled_of_selected hs).trans (by simp [ha])

/-- While the host has not answered, only the draw is taken and the turn kept. -/
theorem exec_fetch_of_wait {l : List Bool} {n : Nat}
    (hd : drawMessageReady s = (false, { s with msgIn := l, draws := n })) :
    exec .fetch s = .next { s with msgIn := l, draws := n, port := heldPort s.port } := by
  rw [exec_fetch_of_clear hs ha, fetchByte, hd]
  rfl

/-- Once the host has answered, the byte the message lists is read and symbol 0 opened. -/
theorem exec_fetch_of_listed {l : List Bool} {n : Nat} {b : Byte}
    (hd : drawMessageReady s = (true, { s with msgIn := l, draws := n })) (hb : s.msg.read s.byteIdx.toNat = some b) :
    exec .fetch s = .next (openSymbol 0 (afterRead b { s with msgIn := l, draws := n })) := by
  have hr := memRead_of_listed (s := { s with msgIn := l, draws := n }) hb
  rw [exec_fetch_of_clear hs ha, fetchByte, hd]
  simp only [hr]
  rfl

/-- Once the host has answered, a byte the message does not list is a free value. -/
theorem exec_fetch_of_unlisted {l : List Bool} {n : Nat}
    (hd : drawMessageReady s = (true, { s with msgIn := l, draws := n })) (hb : s.msg.read s.byteIdx.toNat = none) :
    exec .fetch s =
      .next (openSymbol 0 (afterRead (Config.messageByte n) { s with msgIn := l, draws := n + 1 })) := by
  have hr := memRead_of_unlisted (s := { s with msgIn := l, draws := n }) hb
  rw [exec_fetch_of_clear hs ha, fetchByte, hd]
  simp only [hr]
  rfl

end

/-- Symbol 0 is opened at level 1 whatever byte was read. -/
theorem openSymbol_zero_of_legal {s : State} (h : LegalArguments s) (b : Byte) (l : List Bool) (n : Nat) :
    openSymbol 0 (afterRead b { s with msgIn := l, draws := n }) =
      openedAt 0 true (afterRead b { s with msgIn := l, draws := n }) :=
  openSymbol_eq_openedAt (s := afterRead b { s with msgIn := l, draws := n }) h 0

theorem openSymbol_zero_of_not_legal {s : State} (h : ¬ LegalArguments s) (b : Byte) (l : List Bool) (n : Nat) :
    openSymbol 0 (afterRead b { s with msgIn := l, draws := n }) =
      invalidAt 0 true (afterRead b { s with msgIn := l, draws := n }) :=
  openSymbol_eq_invalidAt (s := afterRead b { s with msgIn := l, draws := n }) h 0

/-- Settles O28: the answer is listed, and so may the byte be. -/
theorem fetchReadsTheByteAndOpensStart : Obligations.FetchReadsTheByteAndOpensStart := by
  intro s rest hb hp hlt ha hm hlegal
  have hs := selectStep_fetch.mpr ⟨hb, hp, hlt⟩
  have hd := drawMessageReady_cons hm
  refine ⟨fun b hbyte => ?listed, fun hbyte => ⟨Config.messageByte s.draws, ?unlisted⟩⟩
  case listed => rw [exec_fetch_of_listed hs ha hd hbyte, openSymbol_zero_of_legal hlegal]
  case unlisted => rw [exec_fetch_of_unlisted hs ha hd hbyte, openSymbol_zero_of_legal hlegal]

/-- Settles O31: the byte is read as with legal arguments, and opening symbol 0 takes the error entry. -/
theorem fetchRaisesInvalidArgument : Obligations.FetchRaisesInvalidArgument := by
  intro s rest hb hp hlt ha hm hbad
  have hs := selectStep_fetch.mpr ⟨hb, hp, hlt⟩
  have hd := drawMessageReady_cons hm
  refine ⟨fun b hbyte => ?listed, fun hbyte => ⟨Config.messageByte s.draws, ?unlisted⟩⟩
  case listed => rw [exec_fetch_of_listed hs ha hd hbyte, openSymbol_zero_of_not_legal hbad]
  case unlisted => rw [exec_fetch_of_unlisted hs ha hd hbyte, openSymbol_zero_of_not_legal hbad]

/-- Settles O29: an answer that is not listed is drawn, and then FETCH waits or reads as where it is listed. -/
theorem fetchWaitsForTheByte : Obligations.FetchWaitsForTheByte := by
  intro s hb hp hlt ha
  have hs := selectStep_fetch.mpr ⟨hb, hp, hlt⟩
  have hturn := heldPort_keepsTurn s.port
  refine ⟨fun rest hm => ⟨_, hturn, exec_fetch_of_wait hs ha (drawMessageReady_cons hm)⟩, fun hm => ?_⟩
  have hd := drawMessageReady_nil hm
  cases hready : Config.messageReady s.draws <;> rw [hready] at hd
  case false => exact .inl ⟨_, hturn, exec_fetch_of_wait hs ha hd⟩
  case true =>
    refine .inr ?_
    cases hbyte : s.msg.read s.byteIdx.toNat with
    | some b =>
      have he := exec_fetch_of_listed hs ha hd hbyte
      exact ⟨b, _, .inl ⟨rfl, rfl⟩, fun h => he.trans (congrArg _ (openSymbol_zero_of_legal h ..)),
        fun h => he.trans (congrArg _ (openSymbol_zero_of_not_legal h ..))⟩
    | none =>
      have he := exec_fetch_of_unlisted hs ha hd hbyte
      exact ⟨_, _, .inr ⟨rfl, rfl⟩, fun h => he.trans (congrArg _ (openSymbol_zero_of_legal h ..)),
        fun h => he.trans (congrArg _ (openSymbol_zero_of_not_legal h ..))⟩

/-! ## OPEN (R117) -/

/-- The level of a symbol index by the kind of its symbol (R63). -/
theorem level_eq_of_kind {b : Byte} {i : Fin 11} {lv : Bool} (hstart : i.val = 0 → lv = true)
    (hdata : 1 ≤ i.val → i.val ≤ 8 → lv = b.getLsbD (8 - i.val)) (hstop : 9 ≤ i.val → lv = false) :
    level b i = lv := by
  unfold level
  split_ifs with h0 h8
  · exact (hstart h0).symm
  · exact (hdata (by omega) h8).symm
  · exact (hstop (by omega)).symm

/-- Settles O32: the level is that of the symbol's index. -/
theorem openFollowsTheSymbolIndex : Obligations.OpenFollowsTheSymbolIndex := by
  intro s lv hstart hdata hstop
  rw [← level_eq_of_kind hstart hdata hstop]
  exact ⟨fun h => congrArg _ (openSymbol_eq_openedAt h s.symIdx),
    fun h => congrArg _ (openSymbol_eq_invalidAt h s.symIdx)⟩

/-! ## EMIT (R118) -/

/-- What EMIT leaves is what the answer drawn asks for. -/
theorem exec_emit_of_draw {s d : State} {a : SinkAnswer} (hs : selectStep s = some .emit)
    (hd : drawSink s = (a, d)) : exec .emit s = .next (afterAnswer a (currentSample s) d) := by
  refine (whenEnabled_of_selected hs).trans (congrArg _ ?_)
  rw [hd]
  cases a <;> rfl

/-- Settles O33: the answer is the one listed, or a free value. -/
theorem emitFollowsTheSinksAnswer : Obligations.EmitFollowsTheSinksAnswer := by
  intro s hb hp hlt
  have hs := selectStep_emit.mpr ⟨hb, hp, hlt⟩
  exact ⟨fun _ _ h => exec_emit_of_draw hs (drawSink_cons h),
    fun h => ⟨_, exec_emit_of_draw hs (drawSink_nil h)⟩⟩

/-! ## NEXTSYM (R119) -/

/-- The index NEXTSYM advances to, where a next symbol exists. -/
theorem symIdx_add_one_eq {i j : Fin 11} (h : j.val = i.val + 1) : i + 1 = j :=
  Fin.ext ((Fin.val_add_one_of_lt' (by omega)).trans h.symm)

theorem selectStep_nextsym_of_next {s : State} {j : Fin 11} (hb : s.busy = true) (hp : s.phase = .emitting)
    (hn : s.sampleIdx = s.nSym) (hj : j.val = s.symIdx.val + 1) : selectStep s = some .nextsym :=
  selectStep_nextsym.mpr ⟨hb, hp, hn, by omega⟩

/-- With no ABORT pending and legal arguments NEXTSYM opens the next symbol at its level. -/
theorem exec_nextsym_of_clear {s : State} {j : Fin 11} (hs : selectStep s = some .nextsym)
    (ha : s.abortPending = false) (hlegal : LegalArguments s) (hj : j.val = s.symIdx.val + 1) :
    exec .nextsym s = .next (openedAt j (level s.shreg j) s) := by
  refine (whenEnabled_of_selected hs).trans (congrArg _ ?_)
  rw [if_neg (Bool.eq_false_iff.mp ha), symIdx_add_one_eq hj]
  exact openSymbol_eq_openedAt (s := { s with symIdx := j }) hlegal j

/-- Settles O34: the level is that of the next index, which is no Start symbol. -/
theorem nextsymOpensTheNextSymbol : Obligations.NextsymOpensTheNextSymbol := by
  intro s j lv hb hp hn hj ha hlegal hdata hstop
  rw [← level_eq_of_kind (fun h0 => by omega) (fun _ => hdata) hstop]
  exact exec_nextsym_of_clear (selectStep_nextsym_of_next hb hp hn hj) ha hlegal hj

/-- Settles O35: `SYM_IDX` is advanced before the pending ABORT is looked at. -/
theorem nextsymTakesAPendingAbort : Obligations.NextsymTakesAPendingAbort := by
  intro s j hb hp hn hj ha
  refine (whenEnabled_of_selected (selectStep_nextsym_of_next hb hp hn hj)).trans (congrArg _ ?_)
  rw [if_pos ha, symIdx_add_one_eq hj]
  rfl

/-! ## ENDFRAME, GAPDONE and FINISH (R120 to R122) -/

theorem gap_toNat_pos_iff {g : Word} : 0 < g.toNat ↔ g ≠ 0 :=
  Nat.pos_iff_ne_zero.trans (not_congr (BitVec.toNat_eq (y := 0#32)).symm)

/-- Settles O36: the delay is requested where `GAP` is not 0. -/
theorem endframeAdvancesTheByte : Obligations.EndframeAdvancesTheByte := by
  intro s hb hp hn hi
  have hs := selectStep_endframe.mpr ⟨hb, hp, hn, not_symIdx_lt_ten_iff.mpr hi⟩
  refine ⟨fun hg => ?none, fun hg => ?gap⟩ <;> refine (whenEnabled_of_selected hs).trans (congrArg _ ?_)
  case none => exact if_neg fun h => gap_toNat_pos_iff.mp h hg
  case gap => exact if_pos (gap_toNat_pos_iff.mpr hg)

/-- What GAPDONE leaves by whether the completion drawn has come. -/
theorem exec_gapdone_of_draw {s d : State} {a : Bool} (hs : selectStep s = some .gapdone)
    (hd : drawDelayDone s = (a, d)) : exec .gapdone s = .next (if a then { d with phase := .idle } else d) :=
  (whenEnabled_of_selected hs).trans (by rw [hd])

/-- Settles O37: the completion is the one listed, or a free value. -/
theorem gapdoneWaitsForDelayDone : Obligations.GapdoneWaitsForDelayDone := by
  intro s hb hp
  have hs := selectStep_gapdone.mpr ⟨hb, hp⟩
  refine ⟨fun _ h => exec_gapdone_of_draw hs (drawDelayDone_cons h),
    fun _ h => exec_gapdone_of_draw hs (drawDelayDone_cons h), fun h => ?_⟩
  have he := exec_gapdone_of_draw hs (drawDelayDone_nil h)
  cases hdone : Config.delayDone s.draws <;> rw [hdone] at he
  · exact .inr he
  · exact .inl he

/-- Settles O38: FINISH runs where it is selected. -/
theorem finishEndsOk : Obligations.FinishEndsOk := fun _ hb hp hn =>
  whenEnabled_of_selected (selectStep_finish.mpr ⟨hb, hp, hn⟩)

/-! ## The length of a message's stream (R112) -/

@[simp] theorem messageSamples_length (s : State) (l : List Byte) :
    (messageSamples s l).length = 11 * windowLength s * l.length := by
  simp only [messageSamples, List.length_flatMap, frameSamples_length, List.map_const', List.sum_replicate,
    smul_eq_mul, Nat.mul_comm]

theorem messageSamples_append (s : State) (l m : List Byte) :
    messageSamples s (l ++ m) = messageSamples s l ++ messageSamples s m := List.flatMap_append

theorem messageSamples_cons (s : State) (b : Byte) (l : List Byte) :
    messageSamples s (b :: l) = frameSamples s b ++ messageSamples s l := List.flatMap_cons

/-- Settles O55: a message's stream is put together from frames of one length, byte after byte. -/
theorem streamLengthAndConcatenation : Obligations.StreamLengthAndConcatenation := fun s l m =>
  ⟨frameSamples_length s, messageSamples_length s l, messageSamples_append s l m⟩

/-! ## Transmissions that FINISH ends (R122, R123) -/

/-- Settles O49: at FINISH `BYTE_IDX` bytes have been read and `11 * N * BYTE_IDX` samples accepted, which is the length
of their whole stream. -/
theorem finishedStreamIsTheWholeMessage : Obligations.FinishedStreamIsTheWholeMessage := by
  intro s t hi h he
  obtain ⟨⟨hb, hp, hn⟩, rfl⟩ := finish_cases he
  have hp' : s.phase ≠ .emitting := by simp [hp]
  have hlen : (runBytes s).length = s.msgLen.toNat := by
    rw [runBytes_length h hb, readCount_of_not_emitting hp', hn]
  have hcursor : s.cursor = (messageSamples s (runBytes s)).length := by
    rw [messageSamples_length, hlen, hi.cursor_between hb hp', hn, Nat.mul_right_comm]
  have hstream : s.stream = messageSamples s (runBytes s) := by
    rw [h.stream_is_prefix hb, hcursor, List.take_length]
  have hcount : s.stream.length = 11 * windowLength s * s.msgLen.toNat := by
    rw [hstream, messageSamples_length, hlen]
  exact ⟨hlen, hstream, hcount⟩

/-- The state an accepted TRANSMIT leaves (R140). -/
def started (s : State) : State :=
  { s with
    busy := true, done := false, err := .ok, abortPending := false, phase := .idle, tone := false,
    byteIdx := 0, symIdx := 0, sampleIdx := 0, nSym := 0, cursor := 0 }

theorem exec_transmit_of_not_busy {s : State} (h : s.busy = false) : exec .transmit s = .next (started s) :=
  congrArg _ (if_neg (by simp [h]))

/-- The state FINISH leaves (R122). -/
def finished (s : State) : State := { s with busy := false, done := true, err := .ok, abortPending := false }

theorem step_finish {s : State} (hport : s.port = []) (hb : s.busy = true) (hp : s.phase = .idle)
    (hn : s.byteIdx = s.msgLen) : step s = .next (finished s) :=
  step_of_selected hport (selectStep_finish.mpr ⟨hb, hp, hn⟩) (finishEndsOk s hb hp hn)

/-- In Idle with the tone off, no ABORT pending and no error, `STATUS` shows `DONE` and `BUSY` alone (R27). -/
theorem statusWord_of_quiet {s : State} (d b : Bool) (hp : s.phase = .idle) (ht : s.tone = false)
    (ha : s.abortPending = false) (he : s.err = .ok) (hd : s.done = d) (hb : s.busy = b) :
    statusWord s = 0#30 ++ BitVec.ofBool d ++ BitVec.ofBool b := by
  simp only [statusWord, State.txState, hp, ht, ha, he, hd, hb]
  cases d <;> cases b <;> rfl

/-- Settles O56: `BYTE_IDX` 0 is already `MSG_LEN`, so FINISH is selected at once. -/
theorem emptyMessageEndsOk : Obligations.EmptyMessageEndsOk := by
  intro s hb hport hlen
  have ht : statusWord (started s) = 0x001#32 := statusWord_of_quiet false true rfl rfl rfl rfl rfl rfl
  have hu : statusWord (finished (started s)) = 0x002#32 := statusWord_of_quiet true false rfl rfl rfl rfl rfl rfl
  exact ⟨_, _, exec_transmit_of_not_busy hb, ht, step_finish hport rfl rfl hlen.symm, hu, rfl, rfl, rfl⟩

/-! ## Runs of the block, and lists that begin with equal answers -/

/-- `k` steps lead from one state to another. -/
def Reaches (k : Nat) (s t : State) : Prop := core.run k s = .next t

theorem reaches_zero (s : State) : Reaches 0 s s := rfl

theorem Reaches.trans {a b : Nat} {s t u : State} (h : Reaches a s t) (h' : Reaches b t u) : Reaches (a + b) s u :=
  (run_add (M := core) h).trans h'

theorem reaches_one {s t : State} (h : step s = .next t) : Reaches 1 s t :=
  run_succ_of_next (M := core) (k := 0) h

theorem replicate_succ_prefix {α : Type} {a : α} {n : Nat} {l : List α} (h : List.replicate (n + 1) a <+: l) :
    ∃ rest, l = a :: rest ∧ List.replicate n a <+: rest := by
  obtain ⟨rest, rfl⟩ := h
  exact ⟨List.replicate n a ++ rest, rfl, List.prefix_append _ _⟩

theorem replicate_add_prefix {α : Type} {a : α} {m n : Nat} {l : List α} (h : List.replicate (m + n) a <+: l) :
    List.replicate m a <+: l ∧ List.replicate n a <+: l.drop m := by
  obtain ⟨rest, rfl⟩ := h
  rw [List.replicate_add, List.append_assoc]
  exact ⟨List.prefix_append _ _, by simp⟩

/-! ## An undisturbed transmission: one window (R118) -/

/-- A transmission in progress with legal arguments, with no ABORT pending and nothing coming from the port. -/
structure Undisturbed (s : State) : Prop where
  port_empty : s.port = []
  busy : s.busy = true
  no_abort : s.abortPending = false
  legal : LegalArguments s

/-- The step selected is the one an undisturbed block takes. -/
theorem Undisturbed.reaches_one {s t : State} {i : Instr} (h : Undisturbed s) (hs : selectStep s = some i)
    (he : exec i s = .next t) : Reaches 1 s t :=
  Proofs.reaches_one (step_of_selected h.port_empty hs he)

/-- The next `n` answers of the sink are accept. -/
def Accepts (n : Nat) (s : State) : Prop := List.replicate n SinkAnswer.accept <+: s.sinkIn

/-- The state once the sink has accepted the samples `w`. -/
def received (w : List Sample) (s : State) : State :=
  { s with sink := s.sink ++ w, cursor := s.cursor + w.length, sinkIn := s.sinkIn.drop w.length }

theorem received_nil (s : State) : received [] s = s := by simp [received]

theorem received_received (v w : List Sample) (s : State) : received w (received v s) = received (v ++ w) s := by
  simp [received, Nat.add_assoc]

@[simp] theorem received_shreg (w : List Sample) (s : State) : (received w s).shreg = s.shreg := rfl
@[simp] theorem received_gap (w : List Sample) (s : State) : (received w s).gap = s.gap := rfl
@[simp] theorem received_delayIn (w : List Sample) (s : State) : (received w s).delayIn = s.delayIn := rfl

/-- The accepting answers are as many as those of the samples received and those that come after. -/
theorem accepts_received {m n : Nat} {s : State} (h : Accepts (m + n) s) :
    Accepts m s ∧ ∀ w : List Sample, w.length = m → Accepts n (received w s) := by
  obtain ⟨hm, hn⟩ := replicate_add_prefix h
  exact ⟨hm, fun w hw => by subst hw; exact hn⟩

/-- The state once the sink has accepted the sample presented. -/
def emitted (s : State) : State := { received [currentSample s] s with sampleIdx := s.sampleIdx + 1 }

theorem Undisturbed.emitted {s : State} (h : Undisturbed s) : Undisturbed (emitted s) := { h with }

theorem exec_emit_of_accepts {s : State} (hs : selectStep s = some .emit) (h : Accepts 1 s) :
    exec .emit s = .next (emitted s) := by
  obtain ⟨rest, hrest, -⟩ := replicate_succ_prefix h
  rw [exec_emit_of_draw hs (drawSink_cons hrest), emitted, received, hrest]
  rfl

/-- Samples `k` to `k + n` of the tone latched. -/
def toneSamples (s : State) (k n : Nat) : List Sample :=
  (List.range' k n).map fun i => sampleFn s.params s.treqF s.treqA (BitVec.ofNat 64 i) s.sampleRate

theorem toneSamples_succ (s : State) (n : Nat) :
    toneSamples s s.sampleIdx.toNat (n + 1) = currentSample s :: toneSamples s (s.sampleIdx.toNat + 1) n := by
  simp [toneSamples, List.range'_succ, currentSample]

theorem toneSamples_emitted (s : State) : toneSamples (emitted s) = toneSamples s := rfl

/-- The tone an opened symbol latches gives the window of its level (R112). -/
theorem toneSamples_openedAt (s : State) (i : Fin 11) (lv : Bool) :
    toneSamples (openedAt i lv s) 0 (windowLength s) = window s lv := by
  cases lv <;> simp [toneSamples, window, SampleSeq.toList, SampleSeq.get, synthesize, windowLength, mapLevel,
    openedAt, List.range_eq_range']

/-- The state at the end of a window of which the sink has still accepted the samples `w`. -/
def toneDone (w : List Sample) (s : State) : State := { received w s with sampleIdx := s.nSym }

theorem toneDone_emitted (w : List Sample) (s : State) :
    toneDone w (emitted s) = toneDone (currentSample s :: w) s := by
  simp [toneDone, emitted, received, Nat.add_assoc, Nat.add_comm 1]

/-- An accepting sink has received the rest of a window after as many EMIT steps as samples are left. -/
theorem reaches_toneDone {n : Nat} {s : State} (h : Undisturbed s) (hp : s.phase = .emitting)
    (hn : s.nSym.toNat = s.sampleIdx.toNat + n) (ha : Accepts n s) :
    Reaches n s (toneDone (toneSamples s s.sampleIdx.toNat n) s) := by
  induction n generalizing s with
  | zero =>
    have hdone : s.sampleIdx = s.nSym := BitVec.eq_of_toNat_eq hn.symm
    rw [toneDone, ← hdone, toneSamples, List.range'_zero, List.map_nil, received_nil]
    exact reaches_zero s
  | succ n ih =>
    have hlt : s.sampleIdx.toNat < s.nSym.toNat := by omega
    have hs := selectStep_emit.mpr ⟨h.busy, hp, hlt⟩
    have hidx : (emitted s).sampleIdx.toNat = s.sampleIdx.toNat + 1 := sampleIdx_add_one_toNat hlt
    have hleft : (emitted s).nSym.toNat = (emitted s).sampleIdx.toNat + n := by
      rw [hidx]
      exact hn.trans (by omega)
    rw [Nat.add_comm] at ha
    obtain ⟨hnow, hlater⟩ := accepts_received ha
    have hrest := ih (h.emitted) hp hleft (hlater _ rfl)
    rw [toneSamples_emitted, hidx, toneDone_emitted, ← toneSamples_succ] at hrest
    have hrun := (h.reaches_one hs (exec_emit_of_accepts hs hnow)).trans hrest
    rwa [Nat.add_comm 1 n] at hrun

theorem Undisturbed.received {s : State} (h : Undisturbed s) (w : List Sample) : Undisturbed (received w s) :=
  { h with }

/-- The state at the end of symbol `i`'s window, from the state before the symbol was opened. -/
def windowDone (i : Fin 11) (s : State) : State :=
  { openedAt i (level s.shreg i) s with sampleIdx := BitVec.ofNat 64 (windowLength s) }

theorem Undisturbed.windowDone {s : State} (h : Undisturbed s) (i : Fin 11) : Undisturbed (windowDone i s) :=
  { h with }

@[simp] theorem windowDone_shreg (i : Fin 11) (s : State) : (windowDone i s).shreg = s.shreg := rfl
@[simp] theorem windowDone_gap (i : Fin 11) (s : State) : (windowDone i s).gap = s.gap := rfl
@[simp] theorem windowDone_delayIn (i : Fin 11) (s : State) : (windowDone i s).delayIn = s.delayIn := rfl

/-- The window is over: `SAMPLE_IDX` has come to `N_SYM`. -/
theorem windowDone_sampleIdx_eq_nSym (i : Fin 11) (s : State) :
    (windowDone i s).sampleIdx = (windowDone i s).nSym := rfl

/-- From the opening of a symbol to the end of its window. -/
theorem reaches_windowDone {s : State} (h : Undisturbed s) (i : Fin 11) (ha : Accepts (windowLength s) s) :
    Reaches (windowLength s) (openedAt i (level s.shreg i) s)
      (windowDone i (received (window s (level s.shreg i)) s)) := by
  have hn : (BitVec.ofNat 64 (windowLength s)).toNat = 0 + windowLength s := by
    have := windowLength_lt (legalArguments_iff.mp h.legal)
    rw [BitVec.toNat_ofNat, Nat.mod_eq_of_lt (by omega), Nat.zero_add]
  rw [← toneSamples_openedAt s i]
  exact reaches_toneDone (s := openedAt i (level s.shreg i) s) { h with } rfl hn ha

/-! ## An undisturbed transmission: one frame (R119, R120) -/

/-- Opening a symbol overwrites all that opening the one before and emitting its window have left. -/
theorem openedAt_windowDone (i j : Fin 11) (lv : Bool) (s : State) :
    openedAt j lv (windowDone i s) = openedAt j lv s := by
  simp only [openedAt, windowDone]

/-- From the opening of a symbol to the opening of the next one: its window, and NEXTSYM. -/
theorem reaches_next_symbol {s : State} (h : Undisturbed s) {i j : Fin 11} (hj : j.val = i.val + 1)
    (ha : Accepts (windowLength s) s) :
    Reaches (windowLength s + 1) (openedAt i (level s.shreg i) s)
      (openedAt j (level s.shreg j) (received (window s (level s.shreg i)) s)) := by
  have hdone := (h.received (window s (level s.shreg i))).windowDone i
  have hs := selectStep_nextsym_of_next hdone.busy rfl (windowDone_sampleIdx_eq_nSym i _) hj
  have hnext := exec_nextsym_of_clear hs hdone.no_abort hdone.legal hj
  rw [openedAt_windowDone, windowDone_shreg, received_shreg] at hnext
  exact (reaches_windowDone h i ha).trans (hdone.reaches_one hs hnext)

/-- The samples of the first `n` symbols of the frame of `SHREG`. -/
def symbolSamples (s : State) (n : Nat) : List Sample := ((frame s.shreg).take n).flatMap fun y => window s y.level

theorem symbolSamples_zero (s : State) : symbolSamples s 0 = [] := rfl

theorem symbolSamples_succ (s : State) (i : Fin 11) :
    symbolSamples s (i.val + 1) = symbolSamples s i.val ++ window s (level s.shreg i) := by
  obtain ⟨y, hy, hlevel⟩ := Option.map_eq_some_iff.mp (frame_getElem?_level s.shreg i)
  simp [symbolSamples, List.take_add_one, hy, hlevel]

theorem symbolSamples_length (s : State) {n : Nat} (hn : n ≤ 11) :
    (symbolSamples s n).length = windowLength s * n := by
  simp only [symbolSamples, List.length_flatMap, window_length, List.map_const', List.sum_replicate, List.length_take,
    frame_length, Nat.min_eq_left hn, smul_eq_mul, Nat.mul_comm]

/-- From the opening of symbol 0 to the opening of symbol `i`. -/
theorem reaches_symbol {s : State} (h : Undisturbed s) (i : Fin 11) (ha : Accepts (windowLength s * i.val) s) :
    Reaches ((windowLength s + 1) * i.val) (openedAt 0 (level s.shreg 0) s)
      (openedAt i (level s.shreg i) (received (symbolSamples s i.val) s)) := by
  induction i using Fin.induction with
  | zero =>
    rw [Fin.val_zero, symbolSamples_zero, received_nil]
    exact reaches_zero _
  | succ i ih =>
    obtain ⟨hbefore, hthis⟩ := accepts_received ha
    have ha' := hthis _ (symbolSamples_length s (by omega))
    have hnext := reaches_next_symbol (h.received (symbolSamples s i.val)) (i := i.castSucc) (j := i.succ) rfl ha'
    have hsamples : symbolSamples s i.succ.val = symbolSamples s i.val ++ window s (level s.shreg i.castSucc) :=
      symbolSamples_succ s i.castSucc
    rw [hsamples, ← received_received]
    exact (ih hbefore).trans hnext

/-- From the opening of symbol 0 to the end of the frame's last window. -/
theorem reaches_frame_sampled {s : State} (h : Undisturbed s) (ha : Accepts (11 * windowLength s) s) :
    Reaches (11 * windowLength s + 10) (openedAt 0 (level s.shreg 0) s)
      (windowDone 10 (received (frameSamples s s.shreg) s)) := by
  have hten := symbolSamples_length s (n := 10) (by decide)
  have hsamples : frameSamples s s.shreg = symbolSamples s 10 ++ window s (level s.shreg 10) :=
    symbolSamples_succ s 10
  rw [show 11 * windowLength s = windowLength s * 10 + windowLength s by ring] at ha
  obtain ⟨hbefore, hlast⟩ := accepts_received ha
  have hwindow := reaches_windowDone (h.received (symbolSamples s 10)) 10 (hlast _ hten)
  rw [show 11 * windowLength s + 10 = (windowLength s + 1) * 10 + windowLength s by ring, hsamples,
    ← received_received]
  exact (reaches_symbol h 10 hbefore).trans hwindow

/-- How many delays follow a frame at a value of `GAP` (R120). -/
def gapCount (g : Word) : Nat := if g = 0 then 0 else 1

/-- The state once a frame has ended and its delay, if any, has completed (R120, R121). -/
def frameEnded (s : State) : State :=
  { s with
    byteIdx := s.byteIdx + 1, symIdx := 0, tone := false, phase := .idle,
    delays := s.delays ++ List.replicate (gapCount s.gap) s.gap, delayIn := s.delayIn.drop (gapCount s.gap) }

/-- The state in the delay after a frame (R120). -/
def gapBegun (s : State) : State :=
  { s with byteIdx := s.byteIdx + 1, symIdx := 0, tone := false, phase := .gapWait, delays := s.delays ++ [s.gap] }

/-- ENDFRAME, and with a gap GAPDONE. -/
theorem reaches_frameEnded {s : State} (h : Undisturbed s) (hp : s.phase = .emitting) (hn : s.sampleIdx = s.nSym)
    (hi : s.symIdx.val = 10) (hd : List.replicate (gapCount s.gap) true <+: s.delayIn) :
    Reaches (1 + gapCount s.gap) s (frameEnded s) := by
  have hs := selectStep_endframe.mpr ⟨h.busy, hp, hn, not_symIdx_lt_ten_iff.mpr hi⟩
  obtain ⟨hnone, hgap⟩ := endframeAdvancesTheByte s h.busy hp hn hi
  by_cases hg : s.gap = 0
  · have hcount : gapCount s.gap = 0 := if_pos hg
    have hend := h.reaches_one hs (hnone hg)
    simpa [frameEnded, hcount] using hend
  · have hcount : gapCount s.gap = 1 := if_neg hg
    rw [hcount] at hd
    obtain ⟨rest, hrest, -⟩ := replicate_succ_prefix hd
    have hwait : Undisturbed (gapBegun s) := { h with }
    have hgapdone := (gapdoneWaitsForDelayDone (gapBegun s) h.busy rfl).1 rest hrest
    have hend := (h.reaches_one hs (hgap hg)).trans
      (hwait.reaches_one (selectStep_gapdone.mpr ⟨h.busy, rfl⟩) hgapdone)
    simpa [frameEnded, gapBegun, hcount, hrest] using hend

/-! ## An undisturbed transmission: one byte (R126) -/

/-- The state in which FETCH opens symbol 0, the byte read (R116). -/
def fetched (b : Byte) (s : State) : State := afterRead b { s with msgIn := s.msgIn.tail }

theorem Undisturbed.fetched {s : State} (h : Undisturbed s) (b : Byte) : Undisturbed (fetched b s) := { h with }

@[simp] theorem fetched_shreg (b : Byte) (s : State) : (fetched b s).shreg = b := rfl
@[simp] theorem fetched_gap (b : Byte) (s : State) : (fetched b s).gap = s.gap := rfl
@[simp] theorem fetched_delayIn (b : Byte) (s : State) : (fetched b s).delayIn = s.delayIn := rfl
@[simp] theorem windowLength_fetched (b : Byte) (s : State) : windowLength (fetched b s) = windowLength s := rfl
@[simp] theorem frameSamples_fetched (b c : Byte) (s : State) : frameSamples (fetched b s) c = frameSamples s c := rfl

theorem level_zero (b : Byte) : level b 0 = true := rfl

theorem level_ten (b : Byte) : level b 10 = false := rfl

/-- FETCH, with the host's answer there and the byte listed. -/
theorem reaches_fetched {s : State} {b : Byte} (h : Undisturbed s) (hp : s.phase = .idle)
    (hlt : s.byteIdx.toNat < s.msgLen.toNat) (hb : s.msg.read s.byteIdx.toNat = some b)
    (hm : List.replicate 1 true <+: s.msgIn) : Reaches 1 s (openedAt 0 true (fetched b s)) := by
  obtain ⟨rest, hrest, -⟩ := replicate_succ_prefix hm
  have hread := (fetchReadsTheByteAndOpensStart s rest h.busy hp hlt h.no_abort hrest h.legal).1 b hb
  rw [Proofs.fetched, hrest, List.tail_cons]
  exact h.reaches_one (selectStep_fetch.mpr ⟨h.busy, hp, hlt⟩) hread

/-- The state once a byte's frame has been sent, from the state before its FETCH. -/
def byteSent (b : Byte) (s : State) : State :=
  { s with
    byteIdx := s.byteIdx + 1, symIdx := 0, phase := .idle, tone := false,
    sampleIdx := BitVec.ofNat 64 (windowLength s), nSym := BitVec.ofNat 64 (windowLength s),
    cursor := s.cursor + (frameSamples s b).length, shreg := b, treqF := s.freqOff, treqA := s.ampOff,
    sinkIn := s.sinkIn.drop (frameSamples s b).length, msgIn := s.msgIn.tail,
    delayIn := s.delayIn.drop (gapCount s.gap), sink := s.sink ++ frameSamples s b,
    reads := s.reads ++ [(s.byteIdx, b)], delays := s.delays ++ List.replicate (gapCount s.gap) s.gap }

/-- Field by field, the operations of a byte's frame one after the other. -/
theorem frameEnded_eq_byteSent (b : Byte) (s : State) :
    frameEnded (windowDone 10 (received (frameSamples s b) (fetched b s))) = byteSent b s := by
  simp only [frameEnded, windowDone, received, fetched, afterRead, openedAt, byteSent, level_ten, windowLength,
    sampleCount, Bool.false_eq_true, if_false]

/-- The steps of a byte's frame: FETCH, `11 * N` EMIT, ten NEXTSYM, ENDFRAME, and GAPDONE with a gap (R126). -/
def byteSteps (s : State) : Nat := 1 + (11 * windowLength s + 10) + (1 + gapCount s.gap)

/-- From FETCH to the end of the byte's frame. -/
theorem reaches_byteSent {s : State} {b : Byte} (h : Undisturbed s) (hp : s.phase = .idle)
    (hlt : s.byteIdx.toNat < s.msgLen.toNat) (hb : s.msg.read s.byteIdx.toNat = some b)
    (hm : List.replicate 1 true <+: s.msgIn) (ha : Accepts (11 * windowLength s) s)
    (hd : List.replicate (gapCount s.gap) true <+: s.delayIn) : Reaches (byteSteps s) s (byteSent b s) := by
  have hframe := reaches_frame_sampled (h.fetched b) ha
  have hend := reaches_frameEnded (((h.fetched b).received (frameSamples s b)).windowDone 10) rfl
    (windowDone_sampleIdx_eq_nSym 10 _) rfl (by simpa using hd)
  rw [windowLength_fetched, fetched_shreg, level_zero, frameSamples_fetched] at hframe
  rw [frameEnded_eq_byteSent, windowDone_gap, received_gap, fetched_gap] at hend
  exact ((reaches_fetched h hp hlt hb hm).trans hframe).trans hend

/-! ## An undisturbed transmission: the message (R123) -/

/-- Between two frames of an undisturbed transmission whose remaining message is the bytes given, with an answer coming
for every question still to be asked. -/
structure ReadyFor (l : List Byte) (s : State) : Prop extends Undisturbed s where
  idle : s.phase = .idle
  first_symbol : s.symIdx = 0
  length : s.byteIdx.toNat + l.length = s.msgLen.toNat
  message : ∀ k b, l[k]? = some b → s.msg.read (s.byteIdx.toNat + k) = some b
  accepts : Accepts (11 * windowLength s * l.length) s
  answers : List.replicate l.length true <+: s.msgIn
  completions : List.replicate (gapCount s.gap * l.length) true <+: s.delayIn

theorem mul_length_cons (n : Nat) (b : Byte) (l : List Byte) : n * (b :: l).length = n + n * l.length := by
  rw [List.length_cons, Nat.mul_succ, Nat.add_comm]

theorem ReadyFor.byteIdx_lt {b : Byte} {l : List Byte} {s : State} (h : ReadyFor (b :: l) s) :
    s.byteIdx.toNat < s.msgLen.toNat := by
  have := h.length
  rw [List.length_cons] at this
  omega

/-- The first byte of the remaining message is sent, and the rest of it remains. -/
theorem ReadyFor.sends_byte {b : Byte} {l : List Byte} {s : State} (h : ReadyFor (b :: l) s) :
    Reaches (byteSteps s) s (byteSent b s) ∧ ReadyFor l (byteSent b s) := by
  obtain ⟨hnow, hlater⟩ := accepts_received (mul_length_cons (11 * windowLength s) b l ▸ h.accepts)
  obtain ⟨hdone, hdones⟩ := replicate_add_prefix (mul_length_cons (gapCount s.gap) b l ▸ h.completions)
  obtain ⟨rest, hrest, hanswers⟩ := replicate_succ_prefix h.answers
  have hanswer : List.replicate 1 true <+: s.msgIn := ⟨rest, hrest.symm⟩
  have hnext := byteIdx_add_one_toNat h.byteIdx_lt
  refine ⟨reaches_byteSent h.toUndisturbed h.idle h.byteIdx_lt (h.message 0 b rfl) hanswer hnow hdone, ?_⟩
  exact {
    port_empty := h.port_empty
    busy := h.busy
    no_abort := h.no_abort
    legal := h.legal
    idle := rfl
    first_symbol := rfl
    length := by
      have hlen := h.length
      rw [List.length_cons] at hlen
      show (s.byteIdx + 1).toNat + l.length = s.msgLen.toNat
      omega
    message := fun k c hk => by
      have hbyte := h.message (k + 1) c hk
      rw [← Nat.add_assoc, Nat.add_right_comm, ← hnext] at hbyte
      exact hbyte
    accepts := hlater _ (frameSamples_length s b)
    answers := by
      rw [byteSent, hrest]
      exact hanswers
    completions := hdones }

/-- What has been sent from one state to another: the samples and the delay requests of the bytes. -/
structure Sent (l : List Byte) (s u : State) : Prop where
  sink : u.sink = s.sink ++ messageSamples s l
  cursor : u.cursor = s.cursor + (messageSamples s l).length
  delays : u.delays = s.delays ++ List.replicate (gapCount s.gap * l.length) s.gap
  msgLen : u.msgLen = s.msgLen

theorem messageSamples_nil (s : State) : messageSamples s [] = [] := rfl

theorem sent_nil (s : State) : Sent [] s s where
  sink := by rw [messageSamples_nil, List.append_nil]
  cursor := rfl
  delays := by rw [List.length_nil, Nat.mul_zero, List.replicate_zero, List.append_nil]
  msgLen := rfl

/-- The samples of a byte and those of the bytes after it are those of the whole. -/
theorem sent_cons {b : Byte} {l : List Byte} {s u : State} (h : Sent l (byteSent b s) u) : Sent (b :: l) s u where
  sink := by
    rw [h.sink, messageSamples_cons, ← List.append_assoc]
    rfl
  cursor := by
    rw [h.cursor, messageSamples_cons, List.length_append, ← Nat.add_assoc]
    rfl
  delays := by
    rw [h.delays, mul_length_cons, List.replicate_add, ← List.append_assoc]
    rfl
  msgLen := h.msgLen

theorem byteSteps_byteSent (b : Byte) (s : State) : byteSteps (byteSent b s) = byteSteps s := rfl

/-- All of the remaining message is sent, and then FINISH is due. -/
theorem ReadyFor.sends_message {l : List Byte} {s : State} (h : ReadyFor l s) :
    ∃ u, Reaches (l.length * byteSteps s) s u ∧ ReadyFor [] u ∧ Sent l s u := by
  induction l generalizing s with
  | nil =>
    rw [List.length_nil, Nat.zero_mul]
    exact ⟨s, reaches_zero s, h, sent_nil s⟩
  | cons b l ih =>
    obtain ⟨hrun, hready⟩ := h.sends_byte
    obtain ⟨u, hrest, hu, hsent⟩ := ih hready
    have hall := hrun.trans hrest
    rw [byteSteps_byteSent, Nat.add_comm, ← Nat.succ_mul] at hall
    exact ⟨u, hall, hu, sent_cons hsent⟩

/-- An accepted TRANSMIT begins with the whole message to be sent. -/
theorem started_readyFor {s : State} {l : List Byte} (hport : s.port = []) (hlegal : LegalArguments s)
    (hlen : s.msgLen.toNat = l.length) (hmsg : ∀ i b, l[i]? = some b → s.msg.read i = some b)
    (hsink : List.replicate (11 * windowLength s * l.length) .accept <+: s.sinkIn)
    (hanswers : List.replicate l.length true <+: s.msgIn)
    (hdones : List.replicate (gapCount s.gap * l.length) true <+: s.delayIn) : ReadyFor l (started s) where
  port_empty := hport
  busy := rfl
  no_abort := rfl
  legal := hlegal
  idle := rfl
  first_symbol := rfl
  length := (Nat.zero_add _).trans hlen.symm
  message := fun k b hk => (congrArg s.msg.read (Nat.zero_add k)).trans (hmsg k b hk)
  accepts := hsink
  answers := hanswers
  completions := hdones

theorem gapCount_mul (g : Word) (n : Nat) : gapCount g * n = if g = 0 then 0 else n := by
  unfold gapCount
  split_ifs <;> simp

/-- The stream of a transmission is what the sink has received since it began. -/
theorem stream_eq_of_sink {s : State} {l w : List Sample} (hs : s.sink = l ++ w) (hc : s.cursor = w.length) :
    s.stream = w := by
  rw [State.stream, hs, hc, List.length_append, Nat.add_sub_cancel, List.drop_left]

theorem byteSteps_started (s : State) :
    byteSteps (started s) = 11 * windowLength s + 12 + (if s.gap = 0 then 0 else 1) := by
  show 1 + (11 * windowLength s + 10) + (1 + gapCount s.gap) = _
  rw [gapCount]
  ring

/-- Settles O57: the frames are sent one after the other, and then FINISH ends the transmission. -/
theorem transmissionWritesTheWholeStream : Obligations.TransmissionWritesTheWholeStream := by
  intro s l restS restM restD hb hport hlegal hlen hmsg hsink hanswers hdones
  rw [← gapCount_mul] at hdones
  have hready := started_readyFor hport hlegal hlen hmsg ⟨restS, hsink.symm⟩ ⟨restM, hanswers.symm⟩
    ⟨restD, hdones.symm⟩
  obtain ⟨u, hrun, hu, hsent⟩ := hready.sends_message
  have hend : u.byteIdx = u.msgLen := BitVec.eq_of_toNat_eq hu.length
  have hall := hrun.trans (reaches_one (step_finish hu.port_empty hu.busy hu.idle hend))
  have hcursor : u.cursor = (messageSamples s l).length := hsent.cursor.trans (Nat.zero_add _)
  have hdelays := hsent.delays
  rw [byteSteps_started] at hall
  rw [gapCount_mul] at hdelays
  exact ⟨started s, finished u, exec_transmit_of_not_busy hb, hall, rfl, rfl, rfl, hend.trans hsent.msgLen,
    hu.first_symbol, stream_eq_of_sink hsent.sink hcursor, hsent.sink, hdelays⟩

end Sys2Proof.Proofs

/-! # Proofs: the host commands (43_host_commands.md)

TRANSMIT and ABORT (R140, R141), WR and RD of each index (R143, R144), the register rows, which are the same accesses
(R72), and the word a step takes from the head of the port (R142). -/

namespace Sys2Proof.Proofs

open Sys2Proof.Machine Sys2Proof.Laws Sys2Proof.Safety

/-! ## TRANSMIT and ABORT (R140, R141) -/

theorem startTransmission_of_busy {s : State} (h : s.busy = true) : startTransmission s = s := if_pos h

/-- Settles O3: an idle block answers `started`, where `STATUS` shows `BUSY` alone; a busy one ignores the command. -/
theorem transmitStartsOnlyWhenIdle : Obligations.TransmitStartsOnlyWhenIdle := by
  refine fun s => ⟨fun hb => ⟨exec_transmit_of_not_busy hb, fun t ht => ?status⟩,
    fun hb => congrArg _ (startTransmission_of_busy hb)⟩
  case status =>
    obtain rfl : started s = t := Host.Outcome.next.inj ((exec_transmit_of_not_busy hb).symm.trans ht)
    exact statusWord_of_quiet false true rfl rfl rfl rfl rfl rfl

theorem requestAbort_of_busy {s : State} (ha : s.params.hasAbort = true) (hb : s.busy = true) :
    requestAbort s = { s with abortPending := true } := if_pos (Bool.and_eq_true_iff.mpr ⟨ha, hb⟩)

theorem requestAbort_of_not_busy {s : State} (h : s.busy = false) : requestAbort s = s := by
  simp [requestAbort, h]

/-- Settles O4: the request is latched where the parameter and `BUSY` both allow it, and either of them refuses it. -/
theorem abortLatchesOnlyWhileBusy : Obligations.AbortLatchesOnlyWhileBusy := fun _ =>
  ⟨fun ha hb => congrArg _ (requestAbort_of_busy ha hb),
    fun h => congrArg _ (h.elim requestAbort_of_not_busy requestAbort_of_not_hasAbort)⟩

/-! ## WR and the register rows as writes (R143, R72) -/

theorem writeConfig_of_not_busy {s : State} (h : s.busy = false) (t : State) : writeConfig s t = t :=
  if_neg (by simp [h])

theorem writeConfig_of_busy {s : State} (h : s.busy = true) (t : State) : writeConfig s t = s := if_pos h

/-- Settles O6: `CMD` decodes its code, the eight configuration registers store under the one guard `BUSY`, and the
other indices have no arm that changes the state. -/
theorem wrStoresConfigurationOnlyWhileIdle : Obligations.WrStoresConfigurationOnlyWhileIdle := by
  refine fun s w => ⟨?cmd, fun hb => ?idle, fun hb r hr => ?busy, rfl, rfl, rfl, fun _ => rfl⟩
  case cmd =>
    rw [exec_wr_cmd, decodeCommand]
    split_ifs <;> rfl
  case idle =>
    have stored (t : State) : (.next (writeConfig s t) : Result) = .next t := congrArg _ (writeConfig_of_not_busy hb t)
    exact ⟨stored _, stored _, stored _, stored _, stored _, stored _, stored _, stored _⟩
  case busy =>
    have ignored (t : State) : (.next (writeConfig s t) : Result) = .next s := congrArg _ (writeConfig_of_busy hb t)
    fin_cases hr <;> exact ignored _

theorem exec_wr_eq_row (r : Reg) (w : Word) (s : State) : exec (.wr r w) s = exec (.ofRegAccess r (.wr w)) s :=
  (exec_ofRegAccess r (.wr w) s).symm

/-- Settles O8: a register row as a write is WR to the register's index, so this is O6 with the rows written in. -/
theorem registerRowWritesStoreTheirRegister : Obligations.RegisterRowWritesStoreTheirRegister := by
  intro s w
  simpa only [exec_wr_eq_row, Instr.ofRegAccess, List.forall_mem_cons, List.not_mem_nil, false_implies, implies_true,
    and_true] using wrStoresConfigurationOnlyWhileIdle s w

/-! ## RD and the register rows as reads (R144, R72) -/

theorem exec_rd_of_readReg {r : Reg} {s : State} {v : Word} (h : readReg r s = v) :
    exec (.rd r) s = .next { s with rdOut := some v } := by
  rw [← h]
  rfl

/-- An amplitude is returned with bits 31:16 equal to 0. -/
theorem sample_setWidth_eq_append (a : Sample) : a.setWidth 32 = 0#16 ++ a :=
  BitVec.setWidth_eq_append (by decide)

/-- Settles O7: the value of each index is the one `readReg` gives, the amplitudes zero-extended. -/
theorem rdReturnsTheRegisterAlone : Obligations.RdReturnsTheRegisterAlone := fun s =>
  ⟨exec_rd_of_readReg rfl, exec_rd_of_readReg rfl, exec_rd_of_readReg rfl, exec_rd_of_readReg rfl,
    exec_rd_of_readReg rfl, exec_rd_of_readReg (sample_setWidth_eq_append s.ampOn),
    exec_rd_of_readReg (sample_setWidth_eq_append s.ampOff), exec_rd_of_readReg rfl, exec_rd_of_readReg rfl,
    exec_rd_of_readReg rfl, exec_rd_of_readReg rfl, exec_rd_of_readReg rfl, fun _ => exec_rd_of_readReg rfl⟩

theorem exec_rd_eq_row (r : Reg) (s : State) : exec (.rd r) s = exec (.ofRegAccess r .rd) s :=
  (exec_ofRegAccess r .rd s).symm

/-- Settles O9: a register row as a read is RD of the register's index, so this is O7 with the rows written in. -/
theorem registerRowReadsReturnTheirRegister : Obligations.RegisterRowReadsReturnTheirRegister := by
  intro s
  simpa only [exec_rd_eq_row, Instr.ofRegAccess] using rdReturnsTheRegisterAlone s

/-! ## The word at the head of the port (R142) -/

theorem runWord_of_decode {w : OpWord} {i : Instr} (h : decode w = .ok i) (s : State) : runWord w s = exec i s := by
  simp only [runWord, h]

theorem runWord_of_reject {w : OpWord} {r : Reject} (h : decode w = .error r) (s : State) :
    runWord w s = .refused (.undecodable r) := by
  simp only [runWord, h]

theorem decodeTableWord_eq_some {nbits w : Nat} {i : Instr} :
    decodeTableWord nbits w = some i ↔ decode (tableWord nbits w) = .ok i := by
  unfold decodeTableWord
  cases decode (tableWord nbits w) <;> simp

/-- A word placed for the next step is taken from the port again before it runs. -/
theorem step_withFetchWord (s : State) (nbits w : Nat) :
    step (s.withFetchWord nbits w) = runWord (tableWord nbits w) s :=
  step_of_port_cons (s := s.withFetchWord nbits w) (e := .op (tableWord nbits w)) (rest := s.port) rfl

/-- Settles O40: the head word is taken from the port and run as what the decoder reads in it. -/
theorem stepRunsThePresentedWord : Obligations.StepRunsThePresentedWord :=
  ⟨fun _ _ _ _ hp hd => (step_of_port_cons hp).trans (runWord_of_decode hd _),
    fun _ _ _ _ hp hd => (step_of_port_cons hp).trans (runWord_of_reject hd _),
    fun s n w _ h => (step_withFetchWord s n w).trans (runWord_of_decode (decodeTableWord_eq_some.mp h) s)⟩

end Sys2Proof.Proofs

/-! # Proofs: the exceptions (60_exceptions.md)

Where a transmission can raise an error, and what the error entry leaves there: the position (R171) and the samples the
sink has received by then (R161 to R164). -/

namespace Sys2Proof.Proofs

open Sys2Proof.Machine Sys2Proof.Laws Sys2Proof.Safety

/-! ## Where a transmission raises an error (R162 to R164) -/

/-- The error entries of the transmitter: a pending ABORT taken by FETCH or by NEXTSYM, which has named the symbol not
begun; broken arguments met by FETCH, the byte read and its tone latched; the sink's failure met by EMIT. -/
inductive ErrorEntry (s : State) : State → Prop
  | abortedAtFetch (hp : s.phase = .idle) : ErrorEntry s (raiseError .interrupted s)
  | invalidAtFetch (hp : s.phase = .idle) (hbad : badArguments s.symDur s.sampleRate = true) (b : Byte) (f : Word)
      (a : Sample) (l : List Bool) (n : Nat) :
      ErrorEntry s (raiseError .invalidArgument
        { s with
          symIdx := 0, shreg := b, treqF := f, treqA := a, msgIn := l, draws := n,
          reads := s.reads ++ [(s.byteIdx, b)] })
  | sinkFailed (hp : s.phase = .emitting) (l : List SinkAnswer) (n : Nat) :
      ErrorEntry s (raiseError .sinkFailure { s with sinkIn := l, draws := n })
  | abortedAtNextsym (hp : s.phase = .emitting) (hn : s.sampleIdx = s.nSym) (hk : s.symIdx.val < 10) :
      ErrorEntry s (raiseError .interrupted { s with symIdx := s.symIdx + 1 })

theorem fetch_ok_or_errorEntry {s t : State} (hok : s.err = .ok) (he : exec .fetch s = .next t) :
    t.err = .ok ∨ ErrorEntry s t := by
  obtain ⟨⟨-, hp, -⟩, ⟨-, rfl⟩ | ⟨_, _, rfl⟩ | ⟨l, n, b, rfl⟩⟩ := fetch_cases he
  · exact .inr (.abortedAtFetch hp)
  · exact .inl hok
  · cases hbad : badArguments s.symDur s.sampleRate
    · rw [openSymbol_of_legal]
      exacts [.inl hok, hbad]
    · rw [openSymbol_of_bad]
      exacts [.inr (.invalidAtFetch hp hbad b _ _ l n), hbad]

theorem emit_ok_or_errorEntry {s t : State} (hok : s.err = .ok) (he : exec .emit s = .next t) :
    t.err = .ok ∨ ErrorEntry s t := by
  obtain ⟨⟨-, hp, -⟩, l, n, rfl | rfl | rfl⟩ := emit_cases he
  · exact .inl hok
  · exact .inl hok
  · exact .inr (.sinkFailed hp l n)

/-- NEXTSYM meets no broken arguments: the symbol before was opened with the same ones. -/
theorem nextsym_ok_or_errorEntry {s t : State} (h : Inv s) (hok : s.err = .ok) (he : exec .nextsym s = .next t) :
    t.err = .ok ∨ ErrorEntry s t := by
  obtain ⟨⟨-, hp, hn, hk⟩, ⟨-, rfl⟩ | ⟨-, rfl⟩⟩ := nextsym_cases he
  · exact .inr (.abortedAtNextsym hp hn hk)
  · obtain ⟨hlegal, -⟩ := h.opened hp
    rw [openSymbol_of_legal]
    exacts [.inl hok, hlegal]

/-- Of the six steps FETCH, EMIT and NEXTSYM can raise an error. -/
theorem selected_ok_or_errorEntry {i : Instr} {s t : State} (h : Inv s) (hi : selectStep s = some i)
    (hok : s.err = .ok) (he : exec i s = .next t) : t.err = .ok ∨ ErrorEntry s t := by
  rcases selected_cases hi he with he | he | he | he | he | he
  · exact fetch_ok_or_errorEntry hok he
  · exact emit_ok_or_errorEntry hok he
  · exact nextsym_ok_or_errorEntry h hok he
  · obtain ⟨-, _, _, -, rfl⟩ := endframe_cases he
    exact .inl hok
  · obtain ⟨-, _, _, _, -, rfl⟩ := gapdone_cases he
    exact .inl hok
  · obtain ⟨-, rfl⟩ := finish_cases he
    exact .inl rfl

/-- In a transmission only the block's own step raises an error, the first port event taken. -/
theorem step_ok_or_errorEntry {s t : State} (hp : HostOnly s) (h : Inv s) (hb : s.busy = true)
    (hstep : step s = .next t) : t.err = .ok ∨ ∃ rest, ErrorEntry { s with port := rest } t := by
  have hok := err_ok_of_busy h hb
  obtain ⟨rest, -, ⟨r, a, rfl⟩ | ⟨i, b, rfl⟩ | rfl | ⟨hidle, -⟩ | ⟨i, hi, he⟩⟩ := step_cases hp hstep
  · rcases accessReg_cases_of_busy (s := { s with port := rest }) r a hb with ⟨v, h'⟩ | ⟨-, h'⟩ <;> rw [h'] <;>
      exact .inl hok
  · exact .inl hok
  · exact .inl rfl
  · simp [hb] at hidle
  · have hinv : Inv { s with port := rest } := { h with }
    exact (selected_ok_or_errorEntry hinv hi hok he).imp_right fun hentry => ⟨rest, hentry⟩

/-! ## The position kept (R171) -/

theorem symIdx_eq_zero_of_idle {s : State} (h : Inv s) (hb : s.busy = true) (hp : s.phase = .idle) : s.symIdx = 0 :=
  symIdx_eq_zero_between h hb (by simp [hp])

/-- Settles O50: each of the error entries is one sequence on a state that differs in the position by NEXTSYM's advance
alone; where FETCH opens symbol 0, `SYM_IDX` is 0 already. -/
theorem errorEntryKeepsThePosition : Obligations.ErrorEntryKeepsThePosition := by
  intro s t hport h hb hstep herr
  obtain ⟨rest, hentry⟩ := (step_ok_or_errorEntry hport h hb hstep).resolve_left herr
  cases hentry with
  | abortedAtFetch | sinkFailed => exact ⟨rfl, rfl, rfl, rfl, rfl, rfl, .inl rfl, rfl, rfl, rfl, rfl, rfl⟩
  | invalidAtFetch hp =>
    have h0 := symIdx_eq_zero_of_idle h hb hp
    exact ⟨rfl, rfl, rfl, rfl, rfl, rfl, .inl h0.symm, rfl, rfl, rfl, rfl, rfl⟩
  | abortedAtNextsym _ _ hk =>
    have hnext := symIdx_add_one_val hk
    exact ⟨rfl, rfl, rfl, rfl, rfl, rfl, .inr ⟨rfl, hnext⟩, rfl, rfl, rfl, rfl, rfl⟩

/-! ## The samples received by then (R161) -/

/-- Before a byte's FETCH the samples accepted are those of the frames before it (R35 (e)). -/
theorem cursor_of_idle {s : State} (h : Inv s) (hb : s.busy = true) (hp : s.phase = .idle) :
    s.cursor = (11 * s.byteIdx.toNat + s.symIdx.val) * windowLength s := by
  rw [symIdx_eq_zero_of_idle h hb hp]
  exact h.cursor_between hb (by simp [hp])

/-- At NEXTSYM the samples accepted are those of the symbols before the one it names (R119). -/
theorem cursor_at_next_symbol {s : State} (h : Inv s) (hp : s.phase = .emitting) (hn : s.sampleIdx = s.nSym)
    (hk : s.symIdx.val < 10) :
    s.cursor = (11 * s.byteIdx.toNat + (s.symIdx + 1).val) * windowLength s := by
  rw [cursor_of_window_done h hp hn, symIdx_add_one_val hk, Nat.add_assoc]

/-- Broken arguments are met at the first byte, where no sample has been accepted (R162). -/
theorem first_byte_of_bad {s : State} (h : Inv s) (hb : s.busy = true) (hp : s.phase = .idle)
    (hbad : badArguments s.symDur s.sampleRate = true) : s.byteIdx = 0 ∧ s.cursor = 0 := by
  have h0 : s.byteIdx = 0 := by
    by_contra hne
    simp [h.legal_after_first hb hne] at hbad
  have hc := h.cursor_between hb (by simp [hp])
  exact ⟨h0, by simpa [h0] using hc⟩

/-- Settles O51: `CURSOR` at an error entry is what the invariants give at the position it keeps, between two frames, within
a window and at the end of one. -/
theorem errorPositionsCountTheSamples : Obligations.ErrorPositionsCountTheSamples := by
  intro s t hport h hb hstep
  rcases step_ok_or_errorEntry hport h hb hstep with hok | ⟨rest, hentry⟩
  · simp [hok]
  cases hentry with
  | abortedAtFetch hp =>
    have hc := cursor_of_idle h hb hp
    exact ⟨nofun, nofun, fun _ => hc⟩
  | invalidAtFetch hp hbad =>
    obtain ⟨hbyte, hcursor⟩ := first_byte_of_bad h hb hp hbad
    exact ⟨fun _ => ⟨hbyte, rfl, hcursor⟩, nofun, nofun⟩
  | sinkFailed hp => exact ⟨nofun, fun _ => h.cursor_emitting hp, nofun⟩
  | abortedAtNextsym hp hn hk => exact ⟨nofun, nofun, fun _ => cursor_at_next_symbol h hp hn hk⟩

end Sys2Proof.Proofs

/-! # Proofs: reset (70_reset_and_hazards.md)

The reset input as a port event: what it sets (R190, R191) and what it leaves alone (R192). -/

namespace Sys2Proof.Proofs

open Sys2Proof.Machine Sys2Proof.Laws

/-- A block reset is the reset state with the elements outside the block, the environment among them, as they were. -/
theorem resetBlock_eq (s : State) :
    resetBlock s =
      { State.reset with
        port := s.port, msg := s.msg, sinkIn := s.sinkIn, msgIn := s.msgIn, delayIn := s.delayIn, draws := s.draws,
        sink := s.sink, reads := s.reads, delays := s.delays, rdOut := s.rdOut, unitOut := s.unitOut,
        params := s.params } := rfl

/-- With the reset input next, the step takes it from the port and resets the block. -/
theorem step_of_port_resetLine {s : State} {rest : List PortEvent} (h : s.port = .resetLine :: rest) :
    step s = .next (resetBlock { s with port := rest }) :=
  step_of_port_cons h

/-- Settles O2: the step is the block reset, which differs from the reset state in what lies outside the block alone. -/
theorem resetInputResetsTheBlockAlone : Obligations.ResetInputResetsTheBlockAlone := by
  intro s rest hport
  rw [step_of_port_resetLine hport, resetBlock_eq]

end Sys2Proof.Proofs
